-- ==== Sys2Proof/Word.lean ====
section
/-! DEFINITION. The word, half-word and byte types of the DCC (spec 00_scope R8: every value is unsigned, bit 0 least significant). -/

namespace Sys2Proof

/-- A register word, 32 bits (00_scope R7). -/
abbrev Word := BitVec 32

/-- A 16-bit field: SID, SSN, USER_LEN, Chunk Length (30_encoding R71). -/
abbrev Half := BitVec 16

/-- A byte of BUF or PRAM (00_scope R8). -/
abbrev Byte := BitVec 8

end Sys2Proof
end

