-- ==== Sys2Proof/Config.lean ====
section
/-! DEFINITION. What an implementation fixes (spec 00_scope R7) and the free values: the OPEN parameters of the DCC and the contents of
its two memories after a reset (70_reset R231). A constant declared opaque has no body, so no proof can learn its value. -/

namespace Sys2Proof

/-- The two byte memories (10_state R39). -/
inductive Space
  | buf
  | pram
deriving DecidableEq, Repr

/-- The OPEN parameters of one DCC (00_scope R7): "A model takes each OPEN parameter as an argument". -/
structure Params where
  /-- BUF_SIZE, the number of bytes of BUF. -/
  bufSize      : Nat
  /-- DEFAULT_FLAGS, what FLAGS takes at reset and at NEW. -/
  defaultFlags : BitVec 3
deriving DecidableEq, Repr

namespace Config

/-- Bytes of the common chunk header (00_scope R7). -/
def headerLength : Nat := 4

/-- Bytes of the fixed-parameter block (00_scope R7). -/
def fixedBlockLength : Nat := 12

/-- The smallest declared length DECODE accepts (00_scope R7). -/
def minDeclaredLength : Nat := 16

/-- PRAM_SIZE (00_scope R7, 92 D3). -/
def pramSize : Nat := 65519

/-- DATA_TYPE, the Chunk Type byte (00_scope R7, 10_state R36). UNVERIFIED: the spec's value, which it takes from general knowledge
(93 G1; log 6). -/
def dataType : Byte := 0x00#8

/-- The free value behind BUF_SIZE (log 1). -/
opaque rawBufSize : Nat

/-- DEFAULT_FLAGS of the DCC that State.reset describes: a free value, any of 0 .. 7 (92 D6; log 1). -/
opaque defaultFlags : BitVec 3

/-- The parameters of the DCC that State.reset describes: BUF_SIZE is a free value in 16 .. 2^32 − 1, each of which some value of
rawBufSize gives (00_scope R7, 92 D3; log 1). -/
def params : Params := ⟨16 + rawBufSize % (2 ^ 32 - 16), defaultFlags⟩

/-- What BUF holds after the n-th reset: a free value, as (address, byte) pairs (70_reset R231; log 2). -/
opaque bufAfterReset : Nat → List (Nat × Byte)

/-- What PRAM holds after the n-th reset: a free value, as (address, byte) pairs (70_reset R231; log 2). -/
opaque pramAfterReset : Nat → List (Nat × Byte)

/-- What the engine's MemRead gives at an address outside a memory, where the spec does not define it (20_memory R52): a free value. No
state that satisfies the invariant of Safety.lean reads it (log 5). -/
opaque absentByte : Space → Nat → Byte

end Config

end Sys2Proof
end

