-- ==== Sys2Proof/Syntax.lean ====
section
/-! DEFINITION. The commands of the DCC: one constructor for each row of spec/opcode_table.json (spec 30_encoding R81). -/

namespace Sys2Proof

/-- A command. It has no operand fields: "Command operands are registers, never fields of the command word" (30_encoding R83). -/
inductive Instr
  /-- ENCODE (41_encode R120). -/
  | encode
  /-- DECODE (42_decode R140). -/
  | decode
  /-- NEW (43_control R170). -/
  | new
deriving DecidableEq, Repr

end Sys2Proof
end

