-- ==== Sys2Proof/WellFormed.lean ====
section
/-! DEFINITION. Well-formedness: the fields of a CMD word (spec 30_encoding R80 to R82), the parameters (00_scope R7) and the commands. -/

namespace Sys2Proof

/-- The two fields of a CMD word (30_encoding R80). -/
structure CmdFields where
  /-- Bits 31:8, reserved, must be 0. -/
  rsv : BitVec 24
  /-- Bits 7:0, the command opcode. -/
  op  : BitVec 8
deriving DecidableEq, Repr

/-- The reserved bits are 0 (30_encoding R80). -/
def CmdFields.rsvClear (c : CmdFields) : Bool := c.rsv = 0#24

/-- The opcode is one of the opcode map (30_encoding R81). -/
def CmdFields.opAssigned (c : CmdFields) : Bool := c.op = 0x01#8 || c.op = 0x02#8 || c.op = 0x03#8

/-- The word is none of the illegal command words (30_encoding R82). -/
def CmdFields.wf (c : CmdFields) : Bool := c.rsvClear && c.opAssigned

/-- The legal parameters: 16 ≤ BUF_SIZE ≤ 2^32 − 1, and any DEFAULT_FLAGS (00_scope R7). -/
abbrev Params.wf (p : Params) : Prop := 16 ≤ p.bufSize ∧ p.bufSize ≤ 2 ^ 32 - 1

/-- Every command is well formed: it has no field that could be out of range (30_encoding R83). -/
def Instr.wf : Instr → Bool
  | .encode => true
  | .decode => true
  | .new => true

end Sys2Proof
end

