-- ==== Sys2Proof/Decode.lean ====
section
/-! DEFINITION. The decoder of CMD words, total on the 2^32 words and refusing by name, and the encoder (spec 30_encoding R80 to R82).
A CMD word is one 32-bit value with no byte view (20_memory R51). -/

namespace Sys2Proof

/-- Why a word is no command (30_encoding R82). Both end as ILLEGAL_CMD (43_control R171). -/
inductive DecodeError
  /-- "any word with rsv ≠ 0". -/
  | reservedBits (rsv : BitVec 24)
  /-- op = 0x00 or 0x04 .. 0xFF. -/
  | reservedOpcode (op : BitVec 8)
deriving DecidableEq, Repr

/-- The fields of a CMD word (30_encoding R80). -/
def cmdFields (w : Word) : CmdFields := ⟨w.extractLsb' 8 24, w.extractLsb' 0 8⟩

/-- The CMD word of two fields (30_encoding R80). -/
def cmdWord (c : CmdFields) : Word := c.rsv ++ c.op

/-- Decode a CMD word (30_encoding R80 to R82). -/
def decode (w : Word) : Except DecodeError Instr :=
  let c := cmdFields w
  if !c.rsvClear then .error (.reservedBits c.rsv)
  else if c.op = 0x01#8 then .ok .encode
  else if c.op = 0x02#8 then .ok .decode
  else if c.op = 0x03#8 then .ok .new
  else .error (.reservedOpcode c.op)

/-- The opcode of a command (30_encoding R81). -/
def opcode : Instr → BitVec 8
  | .encode => 0x01#8
  | .decode => 0x02#8
  | .new => 0x03#8

/-- Encode a command: its CMD word, reserved bits 0 (30_encoding R80, R81). -/
def encode (i : Instr) : Word := cmdWord ⟨0#24, opcode i⟩

/-- The CMD word that the low nbits of w are, the bits above them 0. -/
def tableWord (nbits w : Nat) : Word := BitVec.ofNat 32 (w % 2 ^ nbits)

/-- The decoder on a word numbered as spec/opcode_table.json numbers it. A CMD word has at most 32 bits (30_encoding R77: "exactly one
length, 32 bits"). -/
def decodeTableWord (nbits w : Nat) : Option Instr :=
  if nbits ≤ 32 then
    match decode (tableWord nbits w) with
    | .ok i => some i
    | .error _ => none
  else none

end Sys2Proof
end

