-- ==== Sys2Proof/Machine/Bus.lean ====
section
/-! DEFINITION. The host's side of the bus as plain data: the register names and addresses (spec 10_state R22), the six transactions
(43_control R173), the reset event (70_reset R230) and the values reads return. -/

namespace Sys2Proof.Machine

/-- The 14 named registers of the map (10_state R22). -/
inductive RegName
  | cmd | status | result | offset | bufLen | flags | tsn | sid | ssn | ppid | userLen | declLen | wireLen | chunkType
deriving DecidableEq, Repr

/-- A register's address in REG (10_state R22). -/
def RegName.addr : RegName → Nat
  | .cmd => 0x00
  | .status => 0x04
  | .result => 0x08
  | .offset => 0x0C
  | .bufLen => 0x10
  | .flags => 0x14
  | .tsn => 0x18
  | .sid => 0x1C
  | .ssn => 0x20
  | .ppid => 0x24
  | .userLen => 0x28
  | .declLen => 0x2C
  | .wireLen => 0x30
  | .chunkType => 0x34

/-- The named registers in the order of the map (10_state R22). -/
def RegName.all : List RegName :=
  [.cmd, .status, .result, .offset, .bufLen, .flags, .tsn, .sid, .ssn, .ppid, .userLen, .declLen, .wireLen, .chunkType]

/-- The register at a REG byte address; none at a misaligned, reserved (0x38, 0x3C) or out-of-space one (10_state R22, 43_control R179). -/
def regAt (a : Nat) : Option RegName := RegName.all.find? fun r => r.addr == a

/-- What a read returns: a word of REG, a byte of BUF or PRAM (43_control R173). -/
inductive BusValue
  | word (v : Word)
  | byte (v : Byte)
deriving DecidableEq, Repr

/-- What the host can do to the DCC in one step: the six transactions, "and no others" (43_control R173), and the reset event, which
occurs between transactions (70_reset R230). The spec gives the bus no address width: an address is any natural number (log 9). -/
inductive HostEvent
  | regRead (a : Nat)
  | regWrite (a : Nat) (v : Word)
  | bufRead (a : Nat)
  | bufWrite (a : Nat) (v : Byte)
  | pramRead (a : Nat)
  | pramWrite (a : Nat) (v : Byte)
  | reset
deriving DecidableEq, Repr

end Sys2Proof.Machine
end

