-- ==== Sys2Proof/Machine/Memory.lean ====
section
/-! DEFINITION. A byte memory as plain data: (address, byte) pairs in one canonical form, and the accesses of it (spec 10_state R39 to R41,
20_memory R52, R53). -/

namespace Sys2Proof.Machine

/-- A byte memory: the bytes that differ from unlistedByte, addresses strictly rising. -/
abbrev Memory := List Host.Cell

/-- What an address that a Memory does not list reads as. It only fixes how contents are written down: every byte array has exactly one
canonical Memory, and what the memories hold after a reset is a free value that lists its own bytes (70_reset R231; log 2). -/
def unlistedByte : Byte := 0x00#8

/-- The canonical form: addresses strictly rising, and no entry equal to what an unlisted address reads as. -/
abbrev Memory.wf (m : Memory) : Prop :=
  m.Pairwise (fun c d => c.1 < d.1) ∧ ∀ c ∈ m, c.2 ≠ unlistedByte

/-- Every listed address is an address of a memory of that size (10_state R39). -/
abbrev Memory.within (size : Nat) (m : Memory) : Prop := ∀ c ∈ m, c.1 < size

/-- The byte at an address. -/
def Memory.read : Memory → Nat → Byte
  | [], _ => unlistedByte
  | (b, w) :: m, a => if a < b then unlistedByte else if a = b then w else Memory.read m a

/-- Write one byte, keeping the canonical form. -/
def Memory.write : Memory → Nat → Byte → Memory
  | [], a, v => if v = unlistedByte then [] else [(a, v)]
  | (b, w) :: m, a, v =>
    if a < b then (if v = unlistedByte then (b, w) :: m else (a, v) :: (b, w) :: m)
    else if a = b then (if v = unlistedByte then m else (a, v) :: m)
    else (b, w) :: Memory.write m a v

/-- The engine's read of one byte of a memory of that size. MemRead "is defined only when every address … is inside S" (20_memory R52):
outside, a free value (log 5). -/
def Memory.load (sp : Space) (size : Nat) (m : Memory) (a : Nat) : Byte :=
  if a < size then Memory.read m a else Config.absentByte sp a

/-- The engine's write of one byte. Outside the memory there is no byte to write (20_memory R53; log 5). -/
def Memory.store (size : Nat) (m : Memory) (a : Nat) (v : Byte) : Memory :=
  if a < size then Memory.write m a v else m

/-- n bytes from address a upward. -/
def Memory.loadBytes (sp : Space) (size : Nat) (m : Memory) (a : Nat) : Nat → List Byte
  | 0 => []
  | n + 1 => Memory.load sp size m a :: Memory.loadBytes sp size m (a + 1) n

/-- Write a list of bytes from address a upward. -/
def Memory.storeBytes (size : Nat) : Memory → Nat → List Byte → Memory
  | m, _, [] => m
  | m, a, b :: bs => Memory.storeBytes size (Memory.store size m a b) (a + 1) bs

/-- The memory of that size that holds the given bytes (70_reset R231: "any byte array"): the pairs inside it, in canonical form, a later
pair over an earlier one. -/
def Memory.launch (size : Nat) (cells : List (Nat × Byte)) : Memory :=
  cells.foldl (fun m c => Memory.store size m c.1 c.2) []

end Sys2Proof.Machine
end

