-- ==== Sys2Proof/Machine/State.lean ====
section
/-! DEFINITION. The state of the DCC (spec 10_state R20 to R44) as plain data, why a step could stop, and the state after reset
(70_reset R230, R231). -/

namespace Sys2Proof.Machine

/-- What stops the machine: nothing. FORMAT_TOO_SHORT, BOUNDS, ILLEGAL_CMD, RANGE and ACCESS "are defined hardware outcomes. Each has an
exact next state … so a model gives them that state and not a fault" (60_exceptions R214), so the type has no constructor. -/
inductive Fault
deriving DecidableEq, Repr

/-- Why a step has no meaning. -/
inductive Refusal
  /-- Raised by exec for an instruction without a meaning, by its mnemonic; safe. No arm of exec raises it. -/
  | notModelled (mnemonic : String)
deriving DecidableEq, Repr

/-- The DCC. CMD holds nothing, and DECL_LEN, WIRE_LEN and CHUNK_TYPE are computed when read (10_state R24, R34 to R36), so they have no
field. A register narrower than 32 bits has its used width, the bits above read 0 (10_state R22; log 8). -/
structure State where
  /-- The OPEN parameters of this DCC (00_scope R7); no step changes them (log 1). -/
  params   : Params
  /-- STATUS, all 32 bits; its fields are in Flags.lean (10_state R23). -/
  status   : Word
  /-- RESULT (10_state R25). -/
  result   : Word
  /-- OFFSET (10_state R26). -/
  offset   : Word
  /-- BUF_LEN (10_state R27). -/
  bufLen   : Word
  /-- FLAGS[2:0] = U‖B‖E (10_state R28). -/
  flags    : BitVec 3
  /-- TSN (10_state R29). -/
  tsn      : Word
  /-- SID[15:0] (10_state R30). -/
  sid      : Half
  /-- SSN[15:0] (10_state R31). -/
  ssn      : Half
  /-- PPID (10_state R32). -/
  ppid     : Word
  /-- USER_LEN[15:0] (10_state R33). -/
  userLen  : Half
  /-- BUF (10_state R40). -/
  buf      : Memory
  /-- PRAM (10_state R41). -/
  pram     : Memory
  /-- The model's own: the host events not yet performed, the next one first (log 3). -/
  pending  : List HostEvent
  /-- The model's own: what the reads so far returned, oldest first (70_reset R237; log 4). -/
  returned : List BusValue
  /-- The model's own: the number of resets before, which the free memory contents are taken at (log 2). -/
  resets   : Nat
deriving DecidableEq, Repr

/-- The state a reset leaves: every register at its reset value (70_reset R230, 10_state R22), BUF and PRAM holding the given launch
contents (70_reset R231). -/
def State.launched (p : Params) (buf pram : Memory) (resets : Nat) (pending : List HostEvent) (returned : List BusValue) : State :=
  { params := p, status := 0#32, result := 0#32, offset := 0#32, bufLen := BitVec.ofNat 32 p.bufSize, flags := p.defaultFlags, tsn := 0#32, sid := 0#16,
    ssn := 0#16, ppid := 0#32, userLen := 0#16, buf := buf, pram := pram, pending := pending, returned := returned, resets := resets }

/-- The state that the n-th reset leaves: State.launched with the free memory contents of that reset (70_reset R231; log 2). -/
def State.afterReset (p : Params) (n : Nat) (pending : List HostEvent) (returned : List BusValue) : State :=
  State.launched p (Memory.launch p.bufSize (Config.bufAfterReset n)) (Memory.launch Config.pramSize (Config.pramAfterReset n)) n
    pending returned

/-- The machine right after reset (70_reset R230), with no transaction issued and nothing read yet (logs 3, 4). -/
def State.reset : State := State.afterReset Config.params 0 [] []

end Sys2Proof.Machine
end

