-- ==== Sys2Proof/Machine/Flags.lean ====
section
/-! DEFINITION. The chunk flags byte (spec 40_lengths R104, R105) and the fields of STATUS (10_state R23). -/

namespace Sys2Proof.Machine

/-- Bit 2 of a FLAGS value: unordered (10_state R28). -/
def flagU (f : BitVec 3) : Bool := f.getLsbD 2

/-- Bit 1 of a FLAGS value: beginning (10_state R28). -/
def flagB (f : BitVec 3) : Bool := f.getLsbD 1

/-- Bit 0 of a FLAGS value: ending (10_state R28). -/
def flagE (f : BitVec 3) : Bool := f.getLsbD 0

/-- ComposeFlags: the wire flags byte, bits 7:3 = 0 (40_lengths R104). -/
def composeFlags (f : BitVec 3) : Byte := f.setWidth 8

/-- DecomposeFlags: bits 2:0 of a wire flags byte, bits 7:3 "discarded, not checked" (40_lengths R105). -/
def decomposeFlags (b : Byte) : BitVec 3 := b.extractLsb' 0 3

/-- The sticky bits of STATUS (10_state R23). -/
inductive Sticky
  | format | bounds | illegal | range | access
deriving DecidableEq, Repr

/-- The place of a sticky bit in STATUS (10_state R23). -/
def Sticky.bit : Sticky → Nat
  | .format => 8
  | .bounds => 9
  | .illegal => 10
  | .range => 11
  | .access => 12

/-- STATUS.LAST, bits 3:0 (10_state R23). -/
def statusLast (st : Word) : BitVec 4 := st.extractLsb' 0 4

/-- A sticky bit of STATUS (10_state R23). -/
def statusSticky (b : Sticky) (st : Word) : Bool := st.getLsbD b.bit

/-- The bits of STATUS that no field covers: 7:4 and 31:13 (10_state R23). -/
def statusReserved (st : Word) : Word := st &&& 0xFFFFE0F0#32

/-- STATUS with LAST <- code; "Only commands write LAST" (10_state R23). -/
def setLast (code : BitVec 4) (st : Word) : Word := (st &&& 0xFFFFFFF0#32) ||| code.setWidth 32

/-- STATUS with a sticky bit set (10_state R23). -/
def setSticky (b : Sticky) (st : Word) : Word := st ||| (1#32 <<< b.bit)

/-- The host's write of v to STATUS: bits 12:8 are write-1-to-clear, all others ignored (43_control R176). -/
def clearSticky (v st : Word) : Word := st &&& ~~~(v &&& 0x00001F00#32)

/-- How a command can fail (00_scope R11, 60_exceptions R201). -/
inductive CmdError
  | formatTooShort | bounds | illegalCmd
deriving DecidableEq, Repr

/-- The code of LAST for a failure (60_exceptions R201). -/
def CmdError.code : CmdError → BitVec 4
  | .formatTooShort => 1#4
  | .bounds => 2#4
  | .illegalCmd => 3#4

/-- The sticky bit of a failure (60_exceptions R201). -/
def CmdError.sticky : CmdError → Sticky
  | .formatTooShort => .format
  | .bounds => .bounds
  | .illegalCmd => .illegal

/-- The code of LAST for success (60_exceptions R201). -/
def okCode : BitVec 4 := 0#4

end Sys2Proof.Machine
end

