-- ==== Sys2Proof/Machine/Operands.lean ====
section
/-! DEFINITION. The lengths (spec 40_lengths R100 to R103), what a register reads as (10_state R22 to R36), big-endian fields (20_memory R50
to R53), the held chunk (10_state R43) and its image on the wire (41_encode R125). -/

namespace Sys2Proof.Machine

/-- DeclaredLength(n) = 4 + 12 + n, not rounded up (40_lengths R100). -/
def declaredLength (n : Nat) : Nat := Config.headerLength + Config.fixedBlockLength + n

/-- WireLength(d) = 4 * ceil(d / 4), an unbounded integer (40_lengths R101). -/
def wireLength (d : Nat) : Nat := 4 * ((d + 3) / 4)

/-- PadLength(d) = WireLength(d) − d (40_lengths R102). -/
def padLength (d : Nat) : Nat := wireLength d - d

/-- PayloadLength(d) = d − 16, used for d ≥ 16 only (40_lengths R103). -/
def payloadLength (d : Nat) : Nat := d - 16

/-- DECL_LEN: always DeclaredLength(USER_LEN) (10_state R34). -/
def declLenOf (s : State) : Nat := declaredLength s.userLen.toNat

/-- WIRE_LEN: always WireLength(DeclaredLength(USER_LEN)) (10_state R35). -/
def wireLenOf (s : State) : Nat := wireLength (declLenOf s)

/-- What a register reads as: bits the register does not use read 0 (43_control R174). -/
def regValue (r : RegName) (s : State) : Word :=
  match r with
  | .cmd => 0#32
  | .status => s.status
  | .result => s.result
  | .offset => s.offset
  | .bufLen => s.bufLen
  | .flags => s.flags.setWidth 32
  | .tsn => s.tsn
  | .sid => s.sid.setWidth 32
  | .ssn => s.ssn.setWidth 32
  | .ppid => s.ppid
  | .userLen => s.userLen.setWidth 32
  | .declLen => BitVec.ofNat 32 (declLenOf s)
  | .wireLen => BitVec.ofNat 32 (wireLenOf s)
  | .chunkType => Config.dataType.setWidth 32

/-- The n bytes of an 8n-bit value, the most significant first: byte k is v[8(n−k)−1 : 8(n−k)−8] (20_memory R53). -/
def beBytes (n : Nat) (v : BitVec (8 * n)) : List Byte :=
  (List.range n).map fun k => v.extractLsb' (8 * (n - k) - 8) 8

/-- The 8n-bit value of n bytes, the first most significant (20_memory R52). -/
def beValue (n : Nat) (bs : List Byte) : BitVec (8 * n) :=
  bs.foldl (fun acc b => acc <<< 8 ||| b.setWidth (8 * n)) 0#(8 * n)

/-- The two bytes of a 16-bit field in wire order (20_memory R54). -/
def beBytes16 (v : Half) : List Byte := beBytes 2 v

/-- The four bytes of a 32-bit field in wire order (20_memory R54). -/
def beBytes32 (v : Word) : List Byte := beBytes 4 v

/-- The abstract DataChunk that a DCC state denotes (10_state R43); its chunkType is the constant DATA_TYPE. -/
structure HeldChunk where
  unordered                  : Bool
  beginning                  : Bool
  ending                     : Bool
  transmissionSequenceNumber : Word
  streamId                   : Half
  streamSequenceNumber       : Half
  payloadProtocolId          : Word
  userData                   : List Byte
deriving DecidableEq, Repr

/-- The held chunk of a state; PRAM at and above USER_LEN is no part of it (10_state R43). -/
def heldChunk (s : State) : HeldChunk :=
  { unordered := flagU s.flags, beginning := flagB s.flags, ending := flagE s.flags, transmissionSequenceNumber := s.tsn,
    streamId := s.sid, streamSequenceNumber := s.ssn, payloadProtocolId := s.ppid,
    userData := Memory.loadBytes .pram Config.pramSize s.pram 0 s.userLen.toNat }

/-- U‖B‖E of a held chunk (40_lengths R104). -/
def HeldChunk.flags (c : HeldChunk) : BitVec 3 :=
  BitVec.ofBool c.unordered ++ BitVec.ofBool c.beginning ++ BitVec.ofBool c.ending

/-- EncodeImage(c): the bytes that ENCODE writes (41_encode R125). -/
def encodeImage (c : HeldChunk) : List Byte :=
  [Config.dataType, composeFlags c.flags] ++ beBytes16 (BitVec.ofNat 16 (declaredLength c.userData.length))
    ++ beBytes32 c.transmissionSequenceNumber ++ beBytes16 c.streamId ++ beBytes16 c.streamSequenceNumber
    ++ beBytes32 c.payloadProtocolId ++ c.userData

end Sys2Proof.Machine
end

