-- ==== Sys2Proof/Machine/Ops.lean ====
section
/-! DEFINITION. The operations that the commands and the host transactions share: the memory primitives (spec 20_memory R52 to R57), how a
command ends (60_exceptions R201, R203), how a host access is refused (R202), and reset (70_reset R230). -/

namespace Sys2Proof.Machine

/-- The memory of a space (10_state R39). -/
def State.mem (s : State) : Space → Memory
  | .buf => s.buf
  | .pram => s.pram

/-- The number of bytes of a space (10_state R39). -/
def State.memSize (s : State) : Space → Nat
  | .buf => s.params.bufSize
  | .pram => Config.pramSize

/-- The state with another memory in a space. -/
def State.setMem (s : State) (sp : Space) (m : Memory) : State :=
  match sp with
  | .buf => { s with buf := m }
  | .pram => { s with pram := m }

/-- S[a], the engine's view of one byte (20_memory R52). -/
def byteAt (sp : Space) (a : Nat) (s : State) : Byte := Memory.load sp (s.memSize sp) (s.mem sp) a

/-- The engine's copy of n bytes of S from a upward. -/
def bytesAt (sp : Space) (a n : Nat) (s : State) : List Byte := Memory.loadBytes sp (s.memSize sp) (s.mem sp) a n

/-- The engine's write of bytes to S from a upward (20_memory R53). -/
def putBytes (sp : Space) (a : Nat) (bs : List Byte) (s : State) : State :=
  s.setMem sp (Memory.storeBytes (s.memSize sp) (s.mem sp) a bs)

/-- MemRead(S, a, n) (20_memory R52). -/
def memRead (sp : Space) (a n : Nat) (s : State) : BitVec (8 * n) := beValue n (bytesAt sp a n s)

/-- MemWrite(S, a, n, v) (20_memory R53). -/
def memWrite (sp : Space) (a n : Nat) (v : BitVec (8 * n)) (s : State) : State := putBytes sp a (beBytes n v) s

/-- ReadU16BE (20_memory R55). -/
def readU16BE (sp : Space) (a : Nat) (s : State) : Half := memRead sp a 2 s

/-- ReadU32BE (20_memory R55). -/
def readU32BE (sp : Space) (a : Nat) (s : State) : Word := memRead sp a 4 s

/-- WriteU16BE (20_memory R54). -/
def writeU16BE (sp : Space) (a : Nat) (v : Half) (s : State) : State := memWrite sp a 2 v s

/-- WriteU32BE (20_memory R54). -/
def writeU32BE (sp : Space) (a : Nat) (v : Word) (s : State) : State := memWrite sp a 4 v s

/-- The common chunk header (20_memory R57). -/
structure ChunkHeader where
  type   : Byte
  flags  : Byte
  length : Half
deriving DecidableEq, Repr

/-- WriteHeader(a, type8, flags8, len16) (20_memory R56). -/
def writeHeader (a : Nat) (h : ChunkHeader) (s : State) : State :=
  writeU16BE .buf (a + 2) h.length (memWrite .buf (a + 1) 1 h.flags (memWrite .buf a 1 h.type s))

/-- ReadHeader(a): reports three values "and validates none of them" (20_memory R57). -/
def readHeader (a : Nat) (s : State) : ChunkHeader :=
  { type := memRead .buf a 1 s, flags := memRead .buf (a + 1) 1 s, length := readU16BE .buf (a + 2) s }

/-- raise X: LAST, the sticky bit and RESULT, "exactly this" (60_exceptions R203). -/
def raise (x : CmdError) (s : State) : State :=
  { s with status := setSticky x.sticky (setLast x.code s.status), result := 0#32 }

/-- A command that ends OK: RESULT and LAST = OK, no sticky bit changes (60_exceptions R201). -/
def finishOk (res : Nat) (s : State) : State :=
  { s with status := setLast okCode s.status, result := BitVec.ofNat 32 res }

/-- A refused host access: one sticky bit, never LAST or RESULT (60_exceptions R202). -/
def refuse (b : Sticky) (s : State) : State := { s with status := setSticky b s.status }

/-- The host's clearing of sticky bits, the only way back from an error but reset (60_exceptions R207, 43_control R176). -/
def acknowledge (v : Word) (s : State) : State := { s with status := clearSticky v s.status }

/-- A read returns a value (43_control R173; log 4). -/
def answer (v : BusValue) (s : State) : State := { s with returned := s.returned ++ [v] }

/-- The chunk registers written together (10_state R20), by DECODE and NEW. -/
def loadChunk (flags : BitVec 3) (tsn : Word) (sid ssn : Half) (ppid : Word) (userLen : Half) (s : State) : State :=
  { s with flags := flags, tsn := tsn, sid := sid, ssn := ssn, ppid := ppid, userLen := userLen }

/-- The reset event: all registers at their reset values, the memories at the contents of this reset, whatever they held (70_reset R230,
R231). What the host has still to send and what it was answered are the host's, not the DCC's (log 3). -/
def resetEvent (s : State) : State := State.afterReset s.params (s.resets + 1) s.pending s.returned

end Sys2Proof.Machine
end

