-- ==== Sys2Proof/Machine/Control.lean ====
section
/-! DEFINITION. The meaning of NEW (spec 43_control R170) and of an illegal CMD word (R171). -/

namespace Sys2Proof.Machine

/-- NEW: the construction defaults; PRAM, BUF, OFFSET and BUF_LEN are unchanged (43_control R170). -/
def execNew (s : State) : Host.Outcome State Fault Refusal :=
  .next (finishOk 0 (loadChunk s.params.defaultFlags 0#32 0#16 0#16 0#32 0#16 s))

/-- ILLEGAL: "raise ILLEGAL_CMD", and nothing else changes (43_control R171). -/
def execIllegal (s : State) : Host.Outcome State Fault Refusal := .next (raise .illegalCmd s)

end Sys2Proof.Machine
end

