-- ==== Sys2Proof/Machine/DecodeCmd.lean ====
section
/-! DEFINITION. The meaning of DECODE (spec 42_decode R140 to R149). -/

namespace Sys2Proof.Machine

/-- The declared length in the header at OFFSET, as an integer (42_decode R140). -/
def decodeDeclared (s : State) : Nat := (readHeader s.offset.toNat s).length.toNat

/-- The first of DECODE's checks that fails, in the fixed order; none when all pass (42_decode R141). -/
def decodeCheck (s : State) : Option CmdError :=
  if s.offset.toNat + Config.headerLength > s.bufLen.toNat then some .bounds
  else if decodeDeclared s < Config.minDeclaredLength then some .formatTooShort
  else if s.offset.toNat + decodeDeclared s > s.bufLen.toNat then some .bounds
  else none

/-- The writes of DECODE: the payload into PRAM, the fields into the chunk registers (42_decode R140). -/
def decodeWrites (s : State) : State :=
  let o := s.offset.toNat
  let n := payloadLength (decodeDeclared s)
  loadChunk (decomposeFlags (readHeader o s).flags) (readU32BE .buf (o + 4) s) (readU16BE .buf (o + 8) s) (readU16BE .buf (o + 10) s)
    (readU32BE .buf (o + 12) s) (BitVec.ofNat 16 n) (putBytes .pram 0 (bytesAt .buf (o + 16) n s) s)

/-- DECODE: parse the chunk at BUF[OFFSET] into the held chunk (42_decode R140). -/
def execDecode (s : State) : Host.Outcome State Fault Refusal :=
  .next (match decodeCheck s with
    | some x => raise x s
    | none => finishOk (wireLength (decodeDeclared s)) (decodeWrites s))

end Sys2Proof.Machine
end

