-- ==== Sys2Proof/Machine/EncodeCmd.lean ====
section
/-! DEFINITION. The meaning of ENCODE (spec 41_encode R120 to R126). -/

namespace Sys2Proof.Machine

/-- The precondition ENCODE checks before any write: OFFSET + WIRE_LEN ≤ BUF_LEN, in unbounded integers (41_encode R120, 20_memory R61). -/
def encodeFits (s : State) : Bool := s.offset.toNat + wireLenOf s ≤ s.bufLen.toNat

/-- The header that ENCODE writes (41_encode R120): FLAGS as it stands when the command runs (R121). -/
def encodeHeader (s : State) : ChunkHeader :=
  { type := Config.dataType, flags := composeFlags s.flags, length := BitVec.ofNat 16 (declLenOf s) }

/-- The BUF writes of ENCODE in order, all declared bytes and no padding byte (41_encode R120, R123). -/
def encodeWrites (s : State) : State :=
  let o := s.offset.toNat
  let s1 := writeHeader o (encodeHeader s) s
  let s2 := writeU32BE .buf (o + 4) s.tsn s1
  let s3 := writeU16BE .buf (o + 8) s.sid s2
  let s4 := writeU16BE .buf (o + 10) s.ssn s3
  let s5 := writeU32BE .buf (o + 12) s.ppid s4
  putBytes .buf (o + 16) (bytesAt .pram 0 s.userLen.toNat s) s5

/-- ENCODE: serialize the held chunk into BUF at OFFSET (41_encode R120). -/
def execEncode (s : State) : Host.Outcome State Fault Refusal :=
  .next (if encodeFits s then finishOk (wireLenOf s) (encodeWrites s) else raise .bounds s)

end Sys2Proof.Machine
end

