-- ==== Sys2Proof/Machine/Dispatch.lean ====
section
/-! DEFINITION. One arm per command of spec/opcode_table.json (spec 43_control R172). -/

namespace Sys2Proof.Machine

/-- Run one command. -/
def exec (i : Instr) (s : State) : Host.Outcome State Fault Refusal :=
  match i with
  | .encode => Sys2Proof.Machine.execEncode s
  | .decode => Sys2Proof.Machine.execDecode s
  | .new => Sys2Proof.Machine.execNew s

end Sys2Proof.Machine
end

