-- ==== Sys2Proof/Machine/HostBus.lean ====
section
/-! DEFINITION. What each host event does (spec 43_control R172 to R179, 70_reset R230). -/

namespace Sys2Proof.Machine

/-- CmdWrite(w): the command of w, or ILLEGAL (43_control R172). -/
def cmdWrite (w : Word) (s : State) : Host.Outcome State Fault Refusal :=
  match decode w with
  | .ok i => exec i s
  | .error _ => execIllegal s

/-- A register write with a range of legal values: applied, or refused with STK_RANGE (43_control R175). -/
def applyInRange (legal : Bool) (written s : State) : State := if legal then written else refuse .range s

/-- RegWrite(a, v) (43_control R175, R176, R179). -/
def regWrite (a : Nat) (v : Word) (s : State) : Host.Outcome State Fault Refusal :=
  match regAt a with
  | some .cmd => cmdWrite v s
  | some .status => .next (acknowledge v s)
  | some .result => .next (refuse .access s)
  | some .offset => .next { s with offset := v }
  | some .bufLen => .next (applyInRange (v.toNat ≤ s.params.bufSize) { s with bufLen := v } s)
  | some .flags => .next (applyInRange (v.extractLsb' 3 29 = 0#29) { s with flags := v.extractLsb' 0 3 } s)
  | some .tsn => .next { s with tsn := v }
  | some .sid => .next (applyInRange (v.extractLsb' 16 16 = 0#16) { s with sid := v.extractLsb' 0 16 } s)
  | some .ssn => .next (applyInRange (v.extractLsb' 16 16 = 0#16) { s with ssn := v.extractLsb' 0 16 } s)
  | some .ppid => .next { s with ppid := v }
  | some .userLen => .next (applyInRange (v.toNat ≤ Config.pramSize) { s with userLen := v.extractLsb' 0 16 } s)
  | some .declLen => .next (refuse .access s)
  | some .wireLen => .next (refuse .access s)
  | some .chunkType => .next (refuse .access s)
  | none => .next (refuse .access s)

/-- RegRead(a): the register's value; at any other address 0 and STK_ACCESS (43_control R174, R179). -/
def regRead (a : Nat) (s : State) : State :=
  match regAt a with
  | some r => answer (.word (regValue r s)) s
  | none => answer (.word 0#32) (refuse .access s)

/-- BufRead(a) and PramRead(a): the byte; beyond the memory 0x00 and STK_ACCESS (43_control R177, R178). -/
def byteRead (sp : Space) (a : Nat) (s : State) : State :=
  if a < s.memSize sp then answer (.byte (Memory.read (s.mem sp) a)) s else answer (.byte 0x00#8) (refuse .access s)

/-- BufWrite(a, v) and PramWrite(a, v): beyond the memory nothing is written and STK_ACCESS is set (43_control R177, R178). -/
def byteWrite (sp : Space) (a : Nat) (v : Byte) (s : State) : State :=
  if a < s.memSize sp then s.setMem sp (Memory.write (s.mem sp) a v) else refuse .access s

/-- One host event: "Each is one atomic step and completes before the next" (43_control R173, 20_memory R63). -/
def perform (e : HostEvent) (s : State) : Host.Outcome State Fault Refusal :=
  match e with
  | .regRead a => .next (regRead a s)
  | .regWrite a v => regWrite a v s
  | .bufRead a => .next (byteRead .buf a s)
  | .bufWrite a v => .next (byteWrite .buf a v s)
  | .pramRead a => .next (byteRead .pram a s)
  | .pramWrite a v => .next (byteWrite .pram a v s)
  | .reset => .next (resetEvent s)

end Sys2Proof.Machine
end

