-- ==== Sys2Proof/Machine/Step.lean ====
section
/-! DEFINITION. One step: the next host event is performed (spec 43_control R173, 20_memory R63). -/

namespace Sys2Proof.Machine

/-- One step. With no event left the DCC is idle, "with all state retained" (60_exceptions R213; log 7). -/
def step (s : State) : Host.Outcome State Fault Refusal :=
  match s.pending with
  | [] => .next s
  | e :: rest => perform e { s with pending := rest }

/-- The DCC fetches nothing (10_state R21): its next instruction is the host's next CMD write, so the word is made that (log 3). -/
def State.withFetchWord (s : State) (nbits w : Nat) : State :=
  { s with pending := .regWrite RegName.cmd.addr (tableWord nbits w) :: s.pending }

end Sys2Proof.Machine
end

