-- ==== Sys2Proof/Machine/Location.lean ====
section
/-! DEFINITION. The places that a host read names, what they hold, and which host events can write them (spec 20_memory R63, 30_encoding
R83). -/

namespace Sys2Proof.Machine

/-- A place that a host read names: a register, or a byte of a memory (10_state R39). -/
inductive Location
  | reg (r : RegName)
  | byte (sp : Space) (a : Nat)
deriving DecidableEq, Repr

/-- The place exists: every named register, every byte inside its memory (20_memory R60). -/
def Location.mapped (s : State) : Location → Bool
  | .reg _ => true
  | .byte sp a => a < s.memSize sp

/-- What the place holds, as a read returns it (43_control R174, R177, R178). -/
def Location.value (s : State) : Location → BusValue
  | .reg r => .word (regValue r s)
  | .byte sp a => .byte (Memory.read (s.mem sp) a)

/-- The transaction that reads the place (43_control R173). -/
def Location.readEvent : Location → HostEvent
  | .reg r => .regRead r.addr
  | .byte .buf a => .bufRead a
  | .byte .pram a => .pramRead a

/-- The register whose contents a register's value is computed from: DECL_LEN and WIRE_LEN follow USER_LEN (10_state R34, R35). -/
def RegName.source : RegName → RegName
  | .declLen => .userLen
  | .wireLen => .userLen
  | r => r

/-- The chunk registers (10_state R20). -/
def RegName.isChunk : RegName → Bool
  | .flags | .tsn | .sid | .ssn | .ppid | .userLen => true
  | _ => false

/-- The command, run in this state, writes the place: the column "writes" of 30_encoding R83, bytes of BUF and PRAM and chunk registers only
when its checks pass (60_exceptions R204), ENCODE only its declared length (41_encode R122), DECODE only its payload (42_decode R147). -/
def commandWrites (s : State) : Instr → Location → Bool
  | .encode, .reg r => r = .result || r = .status
  | .encode, .byte .buf a => encodeFits s && s.offset.toNat ≤ a && a < s.offset.toNat + declLenOf s
  | .encode, .byte .pram _ => false
  | .decode, .reg r => r = .result || r = .status || (r.source.isChunk && decodeCheck s = none)
  | .decode, .byte .buf _ => false
  | .decode, .byte .pram a => decodeCheck s = none && a < payloadLength (decodeDeclared s)
  | .new, .reg r => r = .result || r = .status || r.source.isChunk
  | .new, .byte _ _ => false

/-- A CMD write of w, in this state, writes the place: its command does, or it is ILLEGAL, which writes RESULT and STATUS (43_control R171,
R172). -/
def cmdWrites (s : State) (w : Word) (l : Location) : Bool :=
  match decode w with
  | .ok i => commandWrites s i l
  | .error _ => l = .reg .result || l = .reg .status

/-- The register write is refused: the columns "applied when" and "refused with" of 43_control R175, and R179. -/
def regWriteRefused (s : State) (a : Nat) (v : Word) : Bool :=
  match regAt a with
  | some .cmd | some .status | some .offset | some .tsn | some .ppid => false
  | some .bufLen => s.params.bufSize < v.toNat
  | some .flags => 7 < v.toNat
  | some .sid | some .ssn => 0xFFFF < v.toNat
  | some .userLen => Config.pramSize < v.toNat
  | some .result | some .declLen | some .wireLen | some .chunkType | none => true

/-- The host access is refused, so that STATUS alone is written (60_exceptions R202, 43_control R175 to R179). -/
def HostEvent.refused (s : State) : HostEvent → Bool
  | .regRead a => regAt a = none
  | .regWrite a v => regWriteRefused s a v
  | .bufRead a | .bufWrite a _ => s.memSize .buf ≤ a
  | .pramRead a | .pramWrite a _ => s.memSize .pram ≤ a
  | .reset => false

/-- The place that an applied host write names: for a CMD write see cmdWrites. -/
def HostEvent.target : HostEvent → Option Location
  | .regWrite a _ => (regAt a).map .reg
  | .bufWrite a _ => some (.byte .buf a)
  | .pramWrite a _ => some (.byte .pram a)
  | .regRead _ | .bufRead _ | .pramRead _ | .reset => none

/-- The register itself that a place's value comes from; a byte is its own. -/
def Location.source : Location → Location
  | .reg r => .reg r.source
  | .byte sp a => .byte sp a

/-- The host event, performed in this state, writes the place (20_memory R63: "whether the host or a command made it"). A reset writes
every place (70_reset R230, R231). -/
def Location.writtenBy (s : State) (l : Location) (e : HostEvent) : Bool :=
  match e with
  | .reset => true
  | .regWrite 0 w => cmdWrites s w l
  | e => if e.refused s then l = .reg .status else e.target = some l.source

/-- No event of a run writes the place. -/
def Location.unwritten (l : Location) : List HostEvent → State → Bool
  | [], _ => true
  | e :: es, s =>
    !l.writtenBy s e && (match perform e s with
      | .next t => l.unwritten es t
      | .fault _ => false
      | .refused _ => false)

end Sys2Proof.Machine
end

