-- ==== Sys2Proof/Machine/Script.lean ====
section
/-! DEFINITION. The host script lines and their pseudo-instructions as lists of host events (spec 30_encoding R84, R85). -/

namespace Sys2Proof.Machine

/-- One line of a host script (30_encoding R84), then the pseudo-instructions (R85). -/
inductive ScriptLine
  | wr (r : RegName) (v : Word)
  | rd (r : RegName)
  | wb (a : Nat) (v : Byte)
  | rb (a : Nat)
  | wp (a : Nat) (v : Byte)
  | rp (a : Nat)
  | command (i : Instr)
  | cmd (w : Word)
  | encodeAt (off : Word)
  | decodeAt (off : Word)
  | wbytes (a : Nat) (bs : List Byte)
  | wpayload (bs : List Byte)
  | clearSticky
  | setFlags (u b e : Bool)
deriving DecidableEq, Repr

/-- The CMD write that starts a command (30_encoding R84). -/
def commandEvent (i : Instr) : HostEvent := .regWrite RegName.cmd.addr (encode i)

/-- Byte writes from address a upward (30_encoding R85). -/
def byteEvents (write : Nat → Byte → HostEvent) : Nat → List Byte → List HostEvent
  | _, [] => []
  | a, b :: bs => write a b :: byteEvents write (a + 1) bs

/-- The transactions of a script line (30_encoding R84, R85). -/
def ScriptLine.events : ScriptLine → List HostEvent
  | .wr r v => [.regWrite r.addr v]
  | .rd r => [.regRead r.addr]
  | .wb a v => [.bufWrite a v]
  | .rb a => [.bufRead a]
  | .wp a v => [.pramWrite a v]
  | .rp a => [.pramRead a]
  | .command i => [commandEvent i]
  | .cmd w => [.regWrite RegName.cmd.addr w]
  | .encodeAt off => [.regWrite RegName.offset.addr off, commandEvent .encode]
  | .decodeAt off => [.regWrite RegName.offset.addr off, commandEvent .decode]
  | .wbytes a bs => byteEvents .bufWrite a bs
  | .wpayload bs => byteEvents .pramWrite 0 bs ++ [.regWrite RegName.userLen.addr (BitVec.ofNat 32 bs.length)]
  | .clearSticky => [.regWrite RegName.status.addr 0x00001F00#32]
  | .setFlags u b e => [.regWrite RegName.flags.addr (BitVec.ofNat 32 (4 * u.toNat + 2 * b.toNat + e.toNat))]

/-- The transactions of a script, in order. -/
def scriptEvents (ls : List ScriptLine) : List HostEvent := ls.flatMap ScriptLine.events

end Sys2Proof.Machine
end

