-- ==== Sys2Proof/Safety.lean ====
section
/-! DEFINITION. The invariant of the DCC (spec 10_state R22 to R33, 60_exceptions R203), the run and its observation (70_reset R237), the
optional host-bug observation (60_exceptions R214) and what a host must see to before a command (43_control R180). -/

namespace Sys2Proof.Machine

/-- The reserved bits of STATUS are 0 and LAST is a code that is produced, 0 .. 3 (10_state R23). -/
abbrev State.statusLegal (s : State) : Prop := statusReserved s.status = 0#32 ∧ statusLast s.status ≤ 3#4

/-- RESULT is 0, or a wire length that only an ENCODE or DECODE ending OK leaves (10_state R25, 60_exceptions R203). -/
abbrev State.resultLegal (s : State) : Prop :=
  s.result = 0#32 ∨ (statusLast s.status = okCode ∧ 16 ≤ s.result.toNat ∧ s.result.toNat ≤ 65536 ∧ s.result.toNat % 4 = 0)

/-- The registers with a range of legal values hold legal values (10_state R27, R33). -/
abbrev State.rangesLegal (s : State) : Prop := s.bufLen.toNat ≤ s.params.bufSize ∧ s.userLen.toNat ≤ Config.pramSize

/-- The memories are canonical and list only addresses they have (10_state R39). -/
abbrev State.memoriesLegal (s : State) : Prop :=
  Memory.wf s.buf ∧ Memory.within s.params.bufSize s.buf ∧ Memory.wf s.pram ∧ Memory.within Config.pramSize s.pram

/-- The invariant: what the spec says of every state of the DCC. -/
abbrev State.Inv (s : State) : Prop :=
  s.params.wf ∧ s.statusLegal ∧ s.resultLegal ∧ s.rangesLegal ∧ s.memoriesLegal

/-- The contents of REG, word by word from 0x00 to 0x34 (70_reset R237). -/
def regContents (s : State) : List Word := RegName.all.map fun r => regValue r s

/-- What a run shows: the final REG, BUF and PRAM and the values the reads returned (70_reset R237). -/
structure Observation where
  regs     : List Word
  buf      : Memory
  pram     : Memory
  returned : List BusValue
deriving DecidableEq, Repr

/-- The observation of a state at the end of a run (70_reset R237). -/
def observe (s : State) : Observation := ⟨regContents s, s.buf, s.pram, s.returned⟩

/-- A run: a finite sequence of host events, each performed to its end (70_reset R237). -/
def runEvents : List HostEvent → State → Host.Outcome State Fault Refusal
  | [], s => .next s
  | e :: es, s =>
    match perform e s with
    | .next t => runEvents es t
    | .fault r => .fault r
    | .refused r => .refused r

/-- The optional observation: a sticky bit of a programming error of the host is set (60_exceptions R214). -/
def hostBug (s : State) : Bool :=
  statusSticky .bounds s.status || statusSticky .illegal s.status || statusSticky .range s.status || statusSticky .access s.status

/-- The run sets such a bit at some event, so it is one the optional observation flags (60_exceptions R214). -/
def runFlagged : List HostEvent → State → Bool
  | [], s => hostBug s
  | e :: es, s =>
    hostBug s || (match perform e s with
      | .next t => runFlagged es t
      | .fault _ => true
      | .refused _ => true)

/-- "size the buffer: OFFSET + WIRE_LEN ≤ BUF_LEN", the host's duty before ENCODE (43_control R180). -/
def readyToEncode (s : State) : Bool := encodeFits s

/-- A chunk lies at OFFSET that DECODE accepts (42_decode R141). -/
def readyToDecode (s : State) : Bool := decodeCheck s = none

end Sys2Proof.Machine
end

