-- ==== Sys2Proof/Certificates/Slice0/Obligations.lean ====
section
/-! DEFINITION. The statements for the provers, from the numbered rules of spec/ ("R<n>"). Numbers that a rule gives are written out here, so
that a wrong constant of the model would make a statement false. -/

open Sys2Proof Sys2Proof.Machine

/-! ## Encodings and dispatch -/

/-- R80, R81: the three words of the opcode map, written out bit by bit from the table, decode to their commands. -/
def Obligations.CommandWordsDecodeAsTabled : Prop :=
  decode 0b00000000000000000000000000000001#32 = .ok .encode ∧
  decode 0b00000000000000000000000000000010#32 = .ok .decode ∧
  decode 0b00000000000000000000000000000011#32 = .ok .new

/-- R80, R81: every well-formed command's word decodes to it. -/
def Obligations.EncodedCommandDecodesBack : Prop := ∀ i : Instr, i.wf = true → decode (encode i) = .ok i

/-- R81, R82: of all 2^32 words exactly the encoding of a command decodes to it; a word with a reserved bit set is refused for that, and a
word with none set is refused for its opcode 0x00 or 0x04 .. 0xFF. -/
def Obligations.OnlyEncodedWordsDecode : Prop :=
  (∀ (w : Word) (i : Instr), decode w = .ok i ↔ w = encode i) ∧
  (∀ w : Word, w.extractLsb' 8 24 ≠ 0#24 → decode w = .error (.reservedBits (w.extractLsb' 8 24))) ∧
  (∀ w : Word, w.extractLsb' 8 24 = 0#24 → (w.extractLsb' 0 8 = 0x00#8 ∨ 0x04#8 ≤ w.extractLsb' 0 8) →
    decode w = .error (.reservedOpcode (w.extractLsb' 0 8)))

/-- R172: a step whose next event is a CMD write of a command's word is exec of that command at the state with the event taken; of any
other word it is ILLEGAL. The events behind it wait, so commands run in the order of their writes. (The queue of events is the model's
choice, log 3.) -/
def Obligations.StepRunsTheCommandWritten : Prop :=
  ∀ (s : State) (w : Word) (rest : List HostEvent), s.pending = .regWrite 0x00 w :: rest →
    (∀ i, decode w = .ok i → step s = exec i { s with pending := rest }) ∧
    (∀ e, decode w = .error e → step s = .next (raise .illegalCmd { s with pending := rest }))

/-- R171, R82: every word but 1, 2 and 3 gives LAST = 3, STK_ILLEGAL = 1 and RESULT = 0, and changes nothing else. -/
def Obligations.IllegalWordOnlyReports : Prop :=
  ∀ (s : State) (w : Word), w ≠ 0x00000001#32 → w ≠ 0x00000002#32 → w ≠ 0x00000003#32 →
    ∃ t, perform (.regWrite 0x00 w) s = .next t ∧ t.status.extractLsb' 0 4 = 3#4 ∧ t.status.getLsbD 10 = true ∧
      (∀ k, 4 ≤ k → k ≠ 10 → t.status.getLsbD k = s.status.getLsbD k) ∧ t.result = 0#32 ∧
      t = { s with status := t.status, result := t.result }

/-- R14, R63, R213: every step completes; it takes exactly the first event, and with none it changes nothing.
(The queue, and a step with none, are the model's choice, logs 3 and 7.) -/
def Obligations.EveryStepCompletesOneEvent : Prop :=
  (∀ s : State, s.pending = [] → step s = .next s) ∧
  (∀ (s : State) (e : HostEvent) (rest : List HostEvent), s.pending = e :: rest →
    ∃ t, step s = .next t ∧ t.pending = rest)

/-! ## ENCODE -/

/-- R125 (and the OK half of R120): when OFFSET + WIRE_LEN ≤ BUF_LEN, ENCODE ends OK and BUF[o ..] holds EncodeImage of the held chunk, written
out here byte by byte as the rule lists it, 16 + n bytes long; RESULT is the wire length, LAST = OK, and no sticky bit changes. -/
def Obligations.EncodeWritesTheImage : Prop :=
  ∀ s : State, s.Inv → s.offset.toNat + 4 * ((16 + s.userLen.toNat + 3) / 4) ≤ s.bufLen.toNat →
    ∃ t, exec .encode s = .next t ∧
      bytesAt .buf s.offset.toNat (16 + s.userLen.toNat) t =
        [0x00#8, s.flags.setWidth 8, BitVec.ofNat 8 ((16 + s.userLen.toNat) / 256), BitVec.ofNat 8 (16 + s.userLen.toNat),
          s.tsn.extractLsb' 24 8, s.tsn.extractLsb' 16 8, s.tsn.extractLsb' 8 8, s.tsn.extractLsb' 0 8,
          s.sid.extractLsb' 8 8, s.sid.extractLsb' 0 8, s.ssn.extractLsb' 8 8, s.ssn.extractLsb' 0 8,
          s.ppid.extractLsb' 24 8, s.ppid.extractLsb' 16 8, s.ppid.extractLsb' 8 8, s.ppid.extractLsb' 0 8]
          ++ bytesAt .pram 0 s.userLen.toNat s ∧
      t.result.toNat = 4 * ((16 + s.userLen.toNat + 3) / 4) ∧
      t.status.extractLsb' 0 4 = 0#4 ∧ (∀ k, 4 ≤ k → t.status.getLsbD k = s.status.getLsbD k)

/-- R122, the frame of ENCODE: BUF bytes outside [OFFSET, OFFSET + declared length), every byte when it ends BOUNDS, all of PRAM and every
register but RESULT and STATUS are unchanged, in STATUS only LAST and STK_BOUNDS can change; and a second ENCODE leaves the same bytes. -/
def Obligations.EncodeChangesOnlyItsWindow : Prop :=
  ∀ s : State, Memory.wf s.buf → ∃ t, exec .encode s = .next t ∧
    t = { s with buf := t.buf, status := t.status, result := t.result } ∧
    (∀ k, 4 ≤ k → k ≠ 9 → t.status.getLsbD k = s.status.getLsbD k) ∧
    (∀ a, ¬(s.offset.toNat ≤ a ∧ a < s.offset.toNat + declLenOf s) → byteAt .buf a t = byteAt .buf a s) ∧
    (t.status.extractLsb' 0 4 ≠ 0#4 → t.buf = s.buf) ∧
    (∃ u, exec .encode t = .next u ∧ ∀ a, byteAt .buf a u = byteAt .buf a t)

/-- R123: after an ENCODE ending OK every padding byte holds what it held before. -/
def Obligations.EncodeLeavesPaddingAlone : Prop :=
  ∀ s : State, Memory.wf s.buf → s.offset.toNat + 4 * ((16 + s.userLen.toNat + 3) / 4) ≤ s.bufLen.toNat →
    ∃ t, exec .encode s = .next t ∧ t.status.extractLsb' 0 4 = 0#4 ∧
      ∀ a, s.offset.toNat + (16 + s.userLen.toNat) ≤ a → a < s.offset.toNat + 4 * ((16 + s.userLen.toNat + 3) / 4) →
        byteAt .buf a t = byteAt .buf a s

/-- R121: the flags byte is that of the FLAGS value at the time ENCODE runs: a host's FLAGS write just before it decides it, whatever FLAGS
was. -/
def Obligations.EncodeReadsFlagsWhenItRuns : Prop :=
  ∀ (s : State) (v : Word), s.Inv → v.toNat ≤ 7 → s.offset.toNat + 4 * ((16 + s.userLen.toNat + 3) / 4) ≤ s.bufLen.toNat →
    ∃ t u, perform (.regWrite 0x14 v) s = .next t ∧ perform (.regWrite 0x00 0x00000001#32) t = .next u ∧
      byteAt .buf (s.offset.toNat + 1) u = v.setWidth 8

/-- R120, R201: when OFFSET + WIRE_LEN > BUF_LEN, in unbounded integers, ENCODE ends BOUNDS. -/
def Obligations.EncodeReportsBounds : Prop :=
  ∀ s : State, s.bufLen.toNat < s.offset.toNat + 4 * ((16 + s.userLen.toNat + 3) / 4) →
    exec .encode s = .next (raise .bounds s)

/-- R61: an OFFSET so near 2^32 that a chunk would wrap never gives an OK command: ENCODE ends BOUNDS, DECODE does not end OK. -/
def Obligations.OffsetNeverWraps : Prop :=
  ∀ s : State, 2 ^ 32 - 16 ≤ s.offset.toNat →
    exec .encode s = .next (raise .bounds s) ∧
    ∃ t, exec .decode s = .next t ∧ t.status.extractLsb' 0 4 ≠ 0#4 ∧ t.buf = s.buf ∧ t.pram = s.pram

/-- R52, R53, R61: what the commands' checks guarantee. In a state that meets the invariant, once ENCODE's check passes, the window of its
declared length at OFFSET lies inside BUF and its payload inside PRAM; once DECODE's checks pass, the window of the declared length it found
lies inside BUF and the payload inside PRAM. (Which bytes the commands write, and on which bytes they depend: EncodeChangesOnlyItsWindow,
EncodeDependsOnItsChunkAlone, DecodeChangesOnlyTheChunk and DecodeDependsOnItsChunkAlone.) -/
def Obligations.PassedChecksPutTheWindowsInsideTheMemories : Prop :=
  ∀ s : State, s.Inv →
    (encodeFits s = true → s.offset.toNat + declLenOf s ≤ s.params.bufSize ∧ s.userLen.toNat ≤ 65519) ∧
    (decodeCheck s = none → s.offset.toNat + decodeDeclared s ≤ s.params.bufSize ∧ payloadLength (decodeDeclared s) ≤ 65519)

/-- R83, R120: of the memories ENCODE depends on PRAM[0 .. USER_LEN − 1] alone. A state that differs only in BUF and in PRAM at or above
USER_LEN ends with the same registers, keeps its own PRAM, and after an OK ENCODE its window holds the same bytes. -/
def Obligations.EncodeDependsOnItsChunkAlone : Prop :=
  ∀ (s : State) (m p : Memory), Memory.wf s.buf → Memory.wf m →
    (∀ k < s.userLen.toNat, byteAt .pram k { s with buf := m, pram := p } = byteAt .pram k s) →
    ∃ t u, exec .encode s = .next t ∧ exec .encode { s with buf := m, pram := p } = .next u ∧
      u = { t with buf := u.buf, pram := p } ∧
      (t.status.extractLsb' 0 4 = 0#4 → ∀ k < 16 + s.userLen.toNat,
        byteAt .buf (s.offset.toNat + k) u = byteAt .buf (s.offset.toNat + k) t)

/-! ## DECODE -/

/-- R140: when the header lies inside BUF_LEN, the declared length d is at least 16 and the d bytes lie inside BUF_LEN, DECODE ends OK:
each chunk register takes its field, USER_LEN d − 16, PRAM the payload, RESULT the wire length, LAST = OK, and no sticky bit changes. -/
def Obligations.DecodeLoadsTheChunk : Prop :=
  ∀ (s : State) (d : Nat), s.Inv → s.offset.toNat + 4 ≤ s.bufLen.toNat →
    d = 256 * (byteAt .buf (s.offset.toNat + 2) s).toNat + (byteAt .buf (s.offset.toNat + 3) s).toNat →
    16 ≤ d → s.offset.toNat + d ≤ s.bufLen.toNat →
    ∃ t, exec .decode s = .next t ∧
      t.flags = (byteAt .buf (s.offset.toNat + 1) s).extractLsb' 0 3 ∧
      t.tsn = byteAt .buf (s.offset.toNat + 4) s ++ byteAt .buf (s.offset.toNat + 5) s ++ byteAt .buf (s.offset.toNat + 6) s
        ++ byteAt .buf (s.offset.toNat + 7) s ∧
      t.sid = byteAt .buf (s.offset.toNat + 8) s ++ byteAt .buf (s.offset.toNat + 9) s ∧
      t.ssn = byteAt .buf (s.offset.toNat + 10) s ++ byteAt .buf (s.offset.toNat + 11) s ∧
      t.ppid = byteAt .buf (s.offset.toNat + 12) s ++ byteAt .buf (s.offset.toNat + 13) s ++ byteAt .buf (s.offset.toNat + 14) s
        ++ byteAt .buf (s.offset.toNat + 15) s ∧
      t.userLen.toNat = d - 16 ∧
      (∀ k < d - 16, byteAt .pram k t = byteAt .buf (s.offset.toNat + 16 + k) s) ∧
      t.result.toNat = 4 * ((d + 3) / 4) ∧
      t.status.extractLsb' 0 4 = 0#4 ∧ (∀ k, 4 ≤ k → t.status.getLsbD k = s.status.getLsbD k)

/-- R146, R147, the frame of DECODE: BUF, OFFSET and BUF_LEN are unchanged, and PRAM outside the n bytes copied (all of it when a check
fails); the registers that change are the chunk registers, RESULT and, in STATUS, LAST, STK_FORMAT and STK_BOUNDS. -/
def Obligations.DecodeChangesOnlyTheChunk : Prop :=
  ∀ s : State, Memory.wf s.pram → ∃ t, exec .decode s = .next t ∧
    t = { s with flags := t.flags, tsn := t.tsn, sid := t.sid, ssn := t.ssn, ppid := t.ppid, userLen := t.userLen, pram := t.pram,
                 status := t.status, result := t.result } ∧
    (∀ k, 4 ≤ k → k ≠ 8 → k ≠ 9 → t.status.getLsbD k = s.status.getLsbD k) ∧
    (∀ a, ¬(decodeCheck s = none ∧ a < payloadLength (decodeDeclared s)) → byteAt .pram a t = byteAt .pram a s)

/-- R141: the three checks in their order, each with the status it decides. -/
def Obligations.DecodeChecksInOrder : Prop :=
  ∀ (s : State) (d : Nat),
    d = 256 * (byteAt .buf (s.offset.toNat + 2) s).toNat + (byteAt .buf (s.offset.toNat + 3) s).toNat →
    (s.bufLen.toNat < s.offset.toNat + 4 → exec .decode s = .next (raise .bounds s)) ∧
    (s.offset.toNat + 4 ≤ s.bufLen.toNat → d < 16 → exec .decode s = .next (raise .formatTooShort s)) ∧
    (s.offset.toNat + 4 ≤ s.bufLen.toNat → 16 ≤ d → s.bufLen.toNat < s.offset.toNat + d →
      exec .decode s = .next (raise .bounds s)) ∧
    (s.offset.toNat + 4 ≤ s.bufLen.toNat → 16 ≤ d → s.offset.toNat + d ≤ s.bufLen.toNat →
      ∃ t, exec .decode s = .next t ∧ t.status.extractLsb' 0 4 = 0#4)

/-- R142, R143, R145, R62: two states that differ in BUF alone, and there neither in bits 2:0 of the flags byte nor in bytes 2 .. d − 1 of the
chunk at OFFSET (d the declared length), have the same DECODE: the type byte, the reserved flag bits, the padding and all of BUF outside the
chunk have no effect. -/
def Obligations.DecodeDependsOnItsChunkAlone : Prop :=
  ∀ (s : State) (m : Memory),
    decomposeFlags (byteAt .buf (s.offset.toNat + 1) { s with buf := m }) = decomposeFlags (byteAt .buf (s.offset.toNat + 1) s) →
    (∀ k, 2 ≤ k → k < 4 ∨ k < decodeDeclared s →
      byteAt .buf (s.offset.toNat + k) { s with buf := m } = byteAt .buf (s.offset.toNat + k) s) →
    ∃ t, exec .decode s = .next t ∧ exec .decode { s with buf := m } = .next { t with buf := m }

/-- R142: whatever the reserved bits of the flags byte F, FLAGS gets F[2:0]: any two chunks whose flags bytes differ in bits 7:3 alone load the
same registers. -/
def Obligations.DecodeKeepsOnlyThreeFlagBits : Prop :=
  ∀ (s : State) (F : Byte), s.Inv → decodeCheck s = none →
    F.extractLsb' 0 3 = (byteAt .buf (s.offset.toNat + 1) s).extractLsb' 0 3 →
    ∃ t, exec .decode s = .next t ∧ t.flags = F.extractLsb' 0 3 ∧
      exec .decode (putBytes .buf (s.offset.toNat + 1) [F] s) =
        .next { t with buf := (putBytes .buf (s.offset.toNat + 1) [F] s).buf }

/-- R144: a declared length of exactly 16 decodes OK to an empty payload and changes no PRAM byte. -/
def Obligations.EmptyPayloadDecodes : Prop :=
  ∀ s : State, s.offset.toNat + 16 ≤ s.bufLen.toNat →
    byteAt .buf (s.offset.toNat + 2) s = 0x00#8 → byteAt .buf (s.offset.toNat + 3) s = 0x10#8 →
    ∃ t, exec .decode s = .next t ∧ t.status.extractLsb' 0 4 = 0#4 ∧ t.userLen = 0#16 ∧ t.pram = s.pram

/-- R44, R146: no host write to BUF changes an attribute of the held chunk. -/
def Obligations.BufWriteKeepsTheHeldChunk : Prop :=
  ∀ (s : State) (a : Nat) (v : Byte), ∃ t, perform (.bufWrite a v) s = .next t ∧ heldChunk t = heldChunk s

/-! ## The two codec laws -/

/-- R148, the round-trip law: ENCODE and then DECODE, both OK, give the held chunk back. -/
def Obligations.EncodeThenDecodeRestoresTheChunk : Prop :=
  ∀ s : State, s.Inv → s.offset.toNat + 4 * ((16 + s.userLen.toNat + 3) / 4) ≤ s.bufLen.toNat →
    ∃ t u, exec .encode s = .next t ∧ t.status.extractLsb' 0 4 = 0#4 ∧
      exec .decode t = .next u ∧ u.status.extractLsb' 0 4 = 0#4 ∧ heldChunk u = heldChunk s

/-- R148 as DOC's round trip is run as a vector (95 W8): ENCODE, NEW and DECODE restore the held chunk, so DECODE reads it from BUF and not
from the registers it had been in. -/
def Obligations.RoundTripThroughNew : Prop :=
  ∀ s : State, s.Inv → s.offset.toNat + 4 * ((16 + s.userLen.toNat + 3) / 4) ≤ s.bufLen.toNat →
    ∃ t u v, exec .encode s = .next t ∧ exec .new t = .next u ∧ exec .decode u = .next v ∧
      v.status.extractLsb' 0 4 = 0#4 ∧ heldChunk v = heldChunk s

/-- R149, the re-encode law: DECODE ending OK and then ENCODE leave every byte of BUF as it was, but byte 0 of the chunk DATA_TYPE and byte 1
its low three bits. -/
def Obligations.ReencodeKeepsTheChunkImage : Prop :=
  ∀ s : State, s.Inv → decodeCheck s = none →
    s.offset.toNat + 4 * ((decodeDeclared s + 3) / 4) ≤ s.bufLen.toNat →
    ∃ t u, exec .decode s = .next t ∧ exec .encode t = .next u ∧ u.status.extractLsb' 0 4 = 0#4 ∧
      ∀ a, byteAt .buf a u =
        if a = s.offset.toNat then 0x00#8
        else if a = s.offset.toNat + 1 then byteAt .buf a s &&& 0x07#8
        else byteAt .buf a s

/-! ## NEW -/

/-- R170: NEW loads DEFAULT_FLAGS and zeros into the chunk registers, RESULT = 0, LAST = OK, no sticky bit changes, and OFFSET, BUF_LEN, BUF
and PRAM are unchanged; DECL_LEN and WIRE_LEN then read 16; and an ENCODE straight after it, at an OFFSET with room for 16 bytes, writes a
16-byte chunk with DEFAULT_FLAGS and all fields zero. -/
def Obligations.NewLoadsTheDefaults : Prop :=
  ∀ s : State, ∃ t, exec .new s = .next t ∧
    t = { s with flags := s.params.defaultFlags, tsn := 0#32, sid := 0#16, ssn := 0#16, ppid := 0#32, userLen := 0#16, result := 0#32,
                 status := t.status } ∧
    t.status.extractLsb' 0 4 = 0#4 ∧ (∀ k, 4 ≤ k → t.status.getLsbD k = s.status.getLsbD k) ∧
    regValue .declLen t = 16#32 ∧ regValue .wireLen t = 16#32 ∧
    (s.Inv → s.offset.toNat + 16 ≤ s.bufLen.toNat →
      ∃ u, exec .encode t = .next u ∧ u.result = 16#32 ∧
        bytesAt .buf s.offset.toNat 16 u =
          [0x00#8, s.params.defaultFlags.setWidth 8, 0x00#8, 0x10#8, 0#8, 0#8, 0#8, 0#8, 0#8, 0#8, 0#8, 0#8, 0#8, 0#8, 0#8, 0#8])

/-! ## Errors -/

/-- R203, R201: raise writes the code into LAST, sets its sticky bit and clears RESULT, exactly this. -/
def Obligations.RaiseDoesExactlyThis : Prop :=
  ∀ (x : CmdError) (code : BitVec 4) (bit : Nat) (s : State),
    (x, code, bit) ∈ [(CmdError.formatTooShort, 1#4, 8), (CmdError.bounds, 2#4, 9), (CmdError.illegalCmd, 3#4, 10)] →
    (raise x s).status.extractLsb' 0 4 = code ∧ (raise x s).status.getLsbD bit = true ∧
    (∀ k, 4 ≤ k → k ≠ bit → (raise x s).status.getLsbD k = s.status.getLsbD k) ∧ (raise x s).result = 0#32 ∧
    raise x s = { s with status := (raise x s).status, result := (raise x s).result }

/-- R201, R126: the codes each command can end with, and that the sticky bit of the code it ends with is set: ENCODE OK or BOUNDS, DECODE OK,
FORMAT_TOO_SHORT or BOUNDS, NEW OK. -/
def Obligations.EachCommandEndsWithItsOwnCodes : Prop :=
  ∀ (i : Instr) (s : State), ∃ t, exec i s = .next t ∧
    (t.status.extractLsb' 0 4 = 0#4 ∨
      (t.status.extractLsb' 0 4 = 1#4 ∧ i = .decode ∧ t.status.getLsbD 8 = true) ∨
      (t.status.extractLsb' 0 4 = 2#4 ∧ i ≠ .new ∧ t.status.getLsbD 9 = true))

/-- R204: a CMD write, of a command's word or of an illegal one, that does not end OK has changed nothing but STATUS and RESULT, and RESULT
is 0: every chunk register, BUF, PRAM, OFFSET and BUF_LEN are as before. -/
def Obligations.FailedCommandWritesOnlyStatusAndResult : Prop :=
  ∀ (w : Word) (s : State), ∃ t, perform (.regWrite 0x00 w) s = .next t ∧
    (t.status.extractLsb' 0 4 ≠ 0#4 → t.result = 0#32 ∧ t = { s with status := t.status, result := t.result })

/-- R203, R25, R235: RESULT after ENCODE or DECODE is 0 exactly when the command did not end OK. -/
def Obligations.ResultZeroExactlyOnFailure : Prop :=
  ∀ (i : Instr) (s : State), i = .encode ∨ i = .decode →
    ∃ t, exec i s = .next t ∧ (t.result = 0#32 ↔ t.status.extractLsb' 0 4 ≠ 0#4)

/-! ## Host access -/

/-- R174, R22: each mapped register read returns the register's value, unused bits 0, and changes no state of the DCC
(the value is recorded in the model's list of read values, log 4). -/
def Obligations.RegReadReturnsTheRegister : Prop :=
  ∀ s : State,
    let reads (a : Nat) (v : Word) : Prop := perform (.regRead a) s = .next { s with returned := s.returned ++ [.word v] }
    reads 0x00 0#32 ∧ reads 0x04 s.status ∧ reads 0x08 s.result ∧ reads 0x0C s.offset ∧ reads 0x10 s.bufLen ∧
    reads 0x14 (s.flags.setWidth 32) ∧ reads 0x18 s.tsn ∧ reads 0x1C (s.sid.setWidth 32) ∧ reads 0x20 (s.ssn.setWidth 32) ∧
    reads 0x24 s.ppid ∧ reads 0x28 (s.userLen.setWidth 32) ∧ reads 0x2C (BitVec.ofNat 32 (16 + s.userLen.toNat)) ∧
    reads 0x30 (BitVec.ofNat 32 (4 * ((16 + s.userLen.toNat + 3) / 4))) ∧ reads 0x34 0#32

/-- R175: each row of the register write table: CMD dispatches, STATUS is write-1-to-clear, and every other register is written alone, or
refused with the sticky bit named and nothing else changed. -/
def Obligations.RegWriteFollowsTheTable : Prop :=
  ∀ (s : State) (v : Word),
    let writes (a : Nat) (t : State) : Prop := perform (.regWrite a v) s = .next t
    let range : State := { s with status := s.status ||| 0x00000800#32 }
    let access : State := { s with status := s.status ||| 0x00001000#32 }
    perform (.regWrite 0x00 v) s = cmdWrite v s ∧ writes 0x04 { s with status := s.status &&& ~~~(v &&& 0x00001F00#32) } ∧
    writes 0x08 access ∧ writes 0x0C { s with offset := v } ∧
    (v.toNat ≤ s.params.bufSize → writes 0x10 { s with bufLen := v }) ∧ (s.params.bufSize < v.toNat → writes 0x10 range) ∧
    (v.toNat ≤ 7 → writes 0x14 { s with flags := v.setWidth 3 }) ∧ (7 < v.toNat → writes 0x14 range) ∧
    writes 0x18 { s with tsn := v } ∧
    (v.toNat ≤ 0xFFFF → writes 0x1C { s with sid := v.setWidth 16 }) ∧ (0xFFFF < v.toNat → writes 0x1C range) ∧
    (v.toNat ≤ 0xFFFF → writes 0x20 { s with ssn := v.setWidth 16 }) ∧ (0xFFFF < v.toNat → writes 0x20 range) ∧
    writes 0x24 { s with ppid := v } ∧
    (v.toNat ≤ 65519 → writes 0x28 { s with userLen := v.setWidth 16 }) ∧ (65519 < v.toNat → writes 0x28 range) ∧
    writes 0x2C access ∧ writes 0x30 access ∧ writes 0x34 access

/-- R176: the STATUS write clears exactly the sticky bits that v has 1 in. -/
def Obligations.StatusWriteClearsOnes : Prop :=
  ∀ (s : State) (v : Word), ∃ t, perform (.regWrite 0x04 v) s = .next t ∧
    (∀ k, t.status.getLsbD k = if 8 ≤ k ∧ k ≤ 12 ∧ v.getLsbD k = true then false else s.status.getLsbD k) ∧
    t = { s with status := t.status }

/-- R179: a REG access that is misaligned, at 0x40 or above, or at a reserved word reads 0 or writes nothing, and sets STK_ACCESS alone. -/
def Obligations.UnmappedRegAccessIsRefused : Prop :=
  ∀ (s : State) (a : Nat) (v : Word), a % 4 ≠ 0 ∨ 0x40 ≤ a ∨ a = 0x38 ∨ a = 0x3C →
    perform (.regRead a) s =
      .next { s with status := s.status ||| 0x00001000#32, returned := s.returned ++ [.word 0#32] } ∧
    perform (.regWrite a v) s = .next { s with status := s.status ||| 0x00001000#32 }

/-- R177, R39: BufRead returns the byte and BufWrite sets it and no other byte, up to BUF_SIZE and whatever BUF_LEN is; beyond, the read returns
0, the write writes nothing and both set STK_ACCESS. -/
def Obligations.BufAccessUsesBufSize : Prop :=
  ∀ (s : State) (a : Nat) (v : Byte), Memory.wf s.buf →
    (a < s.params.bufSize →
      perform (.bufRead a) s = .next { s with returned := s.returned ++ [.byte (byteAt .buf a s)] } ∧
      ∃ t, perform (.bufWrite a v) s = .next t ∧ t = { s with buf := t.buf } ∧
        ∀ b, byteAt .buf b t = if b = a then v else byteAt .buf b s) ∧
    (s.params.bufSize ≤ a →
      perform (.bufRead a) s =
        .next { s with status := s.status ||| 0x00001000#32, returned := s.returned ++ [.byte 0x00#8] } ∧
      perform (.bufWrite a v) s = .next { s with status := s.status ||| 0x00001000#32 })

/-- R178: the same for PRAM and its 65519 bytes. -/
def Obligations.PramAccessUsesPramSize : Prop :=
  ∀ (s : State) (a : Nat) (v : Byte), Memory.wf s.pram →
    (a ≤ 65518 →
      perform (.pramRead a) s = .next { s with returned := s.returned ++ [.byte (byteAt .pram a s)] } ∧
      ∃ t, perform (.pramWrite a v) s = .next t ∧ t = { s with pram := t.pram } ∧
        ∀ b, byteAt .pram b t = if b = a then v else byteAt .pram b s) ∧
    (65519 ≤ a →
      perform (.pramRead a) s =
        .next { s with status := s.status ||| 0x00001000#32, returned := s.returned ++ [.byte 0x00#8] } ∧
      perform (.pramWrite a v) s = .next { s with status := s.status ||| 0x00001000#32 })

/-- R63: a read returns what the last write to its place left, whether the host or a command made it. First, for two steps next to each other:
a BUF byte write and then a read of it. Then, for a state that meets the invariant: (1) a host byte write to BUF or PRAM inside the memory, and
a host write of a legal value to a writable register, leave the value written; ENCODE ending OK leaves each byte of the image and its result;
DECODE ending OK leaves each payload byte, USER_LEN and its result; NEW leaves USER_LEN 0; (2) what any register or byte holds
stands through any run of events that do not write it, and then a read of it returns that value. (Queue and list of read values: logs 3 and 4.) -/
def Obligations.ReadReturnsTheLastWrite : Prop :=
  ∀ s : State,
    (∀ (a : Nat) (v : Byte) (rest : List HostEvent), Memory.wf s.buf → a < s.params.bufSize →
      s.pending = .bufWrite a v :: .bufRead a :: rest →
      ∃ t u, step s = .next t ∧ step t = .next u ∧ u.returned = s.returned ++ [.byte v] ∧ u.pending = rest) ∧
    (s.Inv →
      let leaves (e : HostEvent) (l : Location) (x : BusValue) : Prop := ∃ t, perform e s = .next t ∧ t.Inv ∧ l.value t = x
      (∀ (a : Nat) (v : Byte), a < s.params.bufSize → leaves (.bufWrite a v) (.byte .buf a) (.byte v)) ∧
      (∀ (a : Nat) (v : Byte), a < 65519 → leaves (.pramWrite a v) (.byte .pram a) (.byte v)) ∧
      (∀ (r : RegName) (limit : Nat) (v : Word),
        (r, limit) ∈ [(RegName.offset, 2 ^ 32 - 1), (.bufLen, s.params.bufSize), (.flags, 7), (.tsn, 2 ^ 32 - 1), (.sid, 0xFFFF), (.ssn, 0xFFFF),
          (.ppid, 2 ^ 32 - 1), (.userLen, 65519)] →
        v.toNat ≤ limit → leaves (.regWrite r.addr v) (.reg r) (.word v)) ∧
      (encodeFits s = true →
        leaves (.regWrite 0x00 0x00000001#32) (.reg .result) (.word (BitVec.ofNat 32 (4 * ((16 + s.userLen.toNat + 3) / 4)))) ∧
        ∀ k < 16 + s.userLen.toNat, leaves (.regWrite 0x00 0x00000001#32) (.byte .buf (s.offset.toNat + k))
          (.byte ((encodeImage (heldChunk s)).getD k 0x00#8))) ∧
      (decodeCheck s = none →
        leaves (.regWrite 0x00 0x00000002#32) (.reg .result) (.word (BitVec.ofNat 32 (4 * ((decodeDeclared s + 3) / 4)))) ∧
        leaves (.regWrite 0x00 0x00000002#32) (.reg .userLen) (.word (BitVec.ofNat 32 (decodeDeclared s - 16))) ∧
        ∀ k < decodeDeclared s - 16, leaves (.regWrite 0x00 0x00000002#32) (.byte .pram k)
          (.byte (byteAt .buf (s.offset.toNat + 16 + k) s))) ∧
      leaves (.regWrite 0x00 0x00000003#32) (.reg .userLen) (.word 0#32) ∧
      (∀ (l : Location) (es : List HostEvent), l.mapped s = true → l.unwritten es s = true →
        ∃ t, runEvents es s = .next t ∧ perform l.readEvent t = .next { t with returned := t.returned ++ [l.value s] }))

/-- R202, R23: no event but a CMD write or a reset writes LAST or RESULT. -/
def Obligations.OnlyCommandsWriteLastAndResult : Prop :=
  ∀ (e : HostEvent) (s : State), (∀ w, e ≠ .regWrite 0x00 w) → e ≠ .reset →
    ∃ t, perform e s = .next t ∧ t.status.extractLsb' 0 4 = s.status.extractLsb' 0 4 ∧ t.result = s.result

/-- R23, R207: a sticky bit that is set stays set through every event but a reset and a STATUS write with a 1 in it. -/
def Obligations.StickyBitsStaySet : Prop :=
  ∀ (e : HostEvent) (s : State) (k : Nat), 8 ≤ k → k ≤ 12 → s.status.getLsbD k = true → e ≠ .reset →
    (∀ v, e = .regWrite 0x04 v → v.getLsbD k = false) →
    ∃ t, perform e s = .next t ∧ t.status.getLsbD k = true

/-- R34, R35, R234: DECL_LEN and WIRE_LEN read straight after a USER_LEN write are the lengths of the new value. -/
def Obligations.LengthsFollowUserLen : Prop :=
  ∀ (s : State) (v : Word), v.toNat ≤ 65519 → ∃ t, perform (.regWrite 0x28 v) s = .next t ∧
    perform (.regRead 0x2C) t = .next { t with returned := t.returned ++ [.word (BitVec.ofNat 32 (16 + v.toNat))] } ∧
    perform (.regRead 0x30) t =
      .next { t with returned := t.returned ++ [.word (BitVec.ofNat 32 (4 * ((16 + v.toNat + 3) / 4)))] }

/-! ## Helper functions -/

/-- R101, R102: WireLength rounds up to a multiple of 4 (both forms agree), PadLength is 0 .. 3 and 0 exactly for a multiple of 4, and
PayloadLength undoes DeclaredLength (R103). -/
def Obligations.LengthFunctionsAgree : Prop :=
  (∀ d : Nat, wireLength d = (d + 3) / 4 * 4 ∧ padLength d ≤ 3 ∧ (padLength d = 0 ↔ d % 4 = 0) ∧ d + padLength d = wireLength d) ∧
  (∀ n : Nat, declaredLength n = 16 + n ∧ payloadLength (declaredLength n) = n) ∧
  (∀ d : Nat, d ≤ 65535 → wireLength d = ((BitVec.ofNat 32 d + 3#32) &&& ~~~3#32).toNat)

/-- R104, R105: the flags byte is 4U + 2B + E, decomposing takes bits 2:0 and undoes composing, and a re-composed byte has its reserved bits cleared. -/
def Obligations.FlagsByteComposesAndDecomposes : Prop :=
  (∀ f : BitVec 3, (composeFlags f).toNat = 4 * (flagU f).toNat + 2 * (flagB f).toNat + (flagE f).toNat) ∧
  (∀ F : Byte, decomposeFlags F = F.extractLsb' 0 3) ∧
  (∀ f : BitVec 3, decomposeFlags (composeFlags f) = f) ∧
  (∀ F : Byte, composeFlags (decomposeFlags F) = F &&& 0x07#8)

/-- R50, R53 to R55: a 32-bit and a 16-bit field are written most significant byte first, at any address at which the field lies inside the
memory, odd ones too, and read back as written; no other byte changes. -/
def Obligations.FieldsAreBigEndian : Prop :=
  ∀ (sp : Space) (a : Nat) (v : Word) (h : Half) (s : State), Memory.wf (s.mem sp) →
    (a + 4 ≤ s.memSize sp →
      byteAt sp a (writeU32BE sp a v s) = v.extractLsb' 24 8 ∧ byteAt sp (a + 1) (writeU32BE sp a v s) = v.extractLsb' 16 8 ∧
      byteAt sp (a + 2) (writeU32BE sp a v s) = v.extractLsb' 8 8 ∧ byteAt sp (a + 3) (writeU32BE sp a v s) = v.extractLsb' 0 8 ∧
      readU32BE sp a (writeU32BE sp a v s) = v ∧
      ∀ c, c < a ∨ a + 4 ≤ c → byteAt sp c (writeU32BE sp a v s) = byteAt sp c s) ∧
    (a + 2 ≤ s.memSize sp →
      byteAt sp a (writeU16BE sp a h s) = h.extractLsb' 8 8 ∧ byteAt sp (a + 1) (writeU16BE sp a h s) = h.extractLsb' 0 8 ∧
      readU16BE sp a (writeU16BE sp a h s) = h ∧
      ∀ c, c < a ∨ a + 2 ≤ c → byteAt sp c (writeU16BE sp a h s) = byteAt sp c s)

/-- R85: the six pseudo-instructions. Each expands to exactly the transactions of the table; and as runs, encode_at and decode_at are the command
at that OFFSET, wbytes leaves its bytes in BUF from its address upward and nothing else, wpayload its bytes in PRAM from 0 and their number in
USER_LEN and nothing else, clear_sticky clears the five sticky bits and nothing else, and set_flags writes FLAGS = U‖B‖E and nothing else. -/
def Obligations.PseudoInstructionsExpand : Prop :=
  (∀ off : Word, (ScriptLine.encodeAt off).events = [.regWrite 0x0C off, .regWrite 0x00 0x00000001#32] ∧
    (ScriptLine.decodeAt off).events = [.regWrite 0x0C off, .regWrite 0x00 0x00000002#32]) ∧
  (∀ (a : Nat) (bs : List Byte), (ScriptLine.wbytes a bs).events = bs.mapIdx fun k b => .bufWrite (a + k) b) ∧
  (∀ bs : List Byte, (ScriptLine.wpayload bs).events =
    (bs.mapIdx fun k b => HostEvent.pramWrite k b) ++ [.regWrite 0x28 (BitVec.ofNat 32 bs.length)]) ∧
  ScriptLine.clearSticky.events = [.regWrite 0x04 0x00001F00#32] ∧
  (∀ u b e : Bool, (ScriptLine.setFlags u b e).events = [.regWrite 0x14 (BitVec.ofNat 32 (4 * u.toNat + 2 * b.toNat + e.toNat))]) ∧
  ∀ s : State,
    (∀ off : Word, runEvents (ScriptLine.encodeAt off).events s = exec .encode { s with offset := off } ∧
      runEvents (ScriptLine.decodeAt off).events s = exec .decode { s with offset := off }) ∧
    (∀ (a : Nat) (bs : List Byte), Memory.wf s.buf → a + bs.length ≤ s.params.bufSize →
      ∃ t, runEvents (ScriptLine.wbytes a bs).events s = .next t ∧ t = { s with buf := t.buf } ∧
        ∀ c, byteAt .buf c t = if a ≤ c ∧ c < a + bs.length then bs.getD (c - a) 0x00#8 else byteAt .buf c s) ∧
    (∀ bs : List Byte, Memory.wf s.pram → bs.length ≤ 65519 →
      ∃ t, runEvents (ScriptLine.wpayload bs).events s = .next t ∧ t = { s with pram := t.pram, userLen := BitVec.ofNat 16 bs.length } ∧
        ∀ c, byteAt .pram c t = if c < bs.length then bs.getD c 0x00#8 else byteAt .pram c s) ∧
    runEvents ScriptLine.clearSticky.events s = .next { s with status := s.status &&& 0xFFFFE0FF#32 } ∧
    (∀ u b e : Bool, runEvents (ScriptLine.setFlags u b e).events s =
      .next { s with flags := BitVec.ofBool u ++ BitVec.ofBool b ++ BitVec.ofBool e })

/-! ## Reset and the invariant -/

/-- R230: a reset event, in any state with legal parameters, and the reset state itself: every register holds its reset value, and DECL_LEN,
WIRE_LEN and CHUNK_TYPE read 16, 16 and DATA_TYPE. -/
def Obligations.ResetSetsEveryRegister : Prop :=
  let values (s : State) : Prop :=
    s.status = 0#32 ∧ s.result = 0#32 ∧ s.offset = 0#32 ∧ s.bufLen.toNat = s.params.bufSize ∧ s.flags = s.params.defaultFlags ∧
    s.tsn = 0#32 ∧ s.sid = 0#16 ∧ s.ssn = 0#16 ∧ s.ppid = 0#32 ∧ s.userLen = 0#16 ∧
    regValue .declLen s = 16#32 ∧ regValue .wireLen s = 16#32 ∧ regValue .chunkType s = 0#32
  values State.reset ∧
  ∀ s : State, s.params.wf → ∃ t, perform .reset s = .next t ∧ values t ∧ t.params = s.params

/-- The reset state meets the invariant (R22, R230), whatever the free memory contents and parameters are. -/
def Obligations.ResetMeetsTheInvariant : Prop := State.reset.Inv

/-- R22, R23, R25, R27, R33, R39, R203: every step keeps the invariant: legal parameters, STATUS with its reserved bits 0 and LAST 0 .. 3,
RESULT 0 or a wire length 16 .. 65536 that an OK command left (LAST = OK with it), BUF_LEN ≤ BUF_SIZE, USER_LEN ≤ 65519, and both memories
canonical and inside their sizes. -/
def Obligations.EveryStepKeepsTheInvariant : Prop :=
  ∀ s t : State, s.Inv → step s = .next t → t.Inv

/-- That no step changes params is the model's choice (log 1, DESIGN CHOICE): R7 names the parameters BUF_SIZE and DEFAULT_FLAGS, and does not
say that they stay. The statement is that the model keeps to its choice. -/
def Obligations.ParametersNeverChange : Prop := ∀ s t : State, step s = .next t → t.params = s.params
end

