-- ==== Sys2Proof/Laws/Memory.lean ====
section
/-! SUPPORT. The laws of a byte memory: read after write, the canonical form is kept, equal contents are equal data, and what a run of bytes
written or copied is. -/

namespace Sys2Proof.Machine

/-- Below the first listed address of a canonical memory nothing is listed. -/
theorem Memory.read_eq_unlisted_of_lt {m : Memory} {a : Nat} (h : ∀ c ∈ m, a < c.1) : Memory.read m a = unlistedByte := by
  cases m with
  | nil => rfl
  | cons c m => simp [Memory.read, h c (by simp)]

theorem Memory.wf_cons {c : Host.Cell} {m : Memory} :
    Memory.wf (c :: m) ↔ (∀ d ∈ m, c.1 < d.1) ∧ c.2 ≠ unlistedByte ∧ Memory.wf m := by
  simp only [Memory.wf, List.pairwise_cons, List.mem_cons, forall_eq_or_imp]
  tauto

theorem Memory.wf_nil : Memory.wf [] := by simp [Memory.wf]

/-- Every address that a memory lists after a write was listed before or is the one written. -/
theorem Memory.mem_write {m : Memory} {a : Nat} {v : Byte} {c : Host.Cell} (h : c ∈ Memory.write m a v) : c ∈ m ∨ c = (a, v) := by
  induction m with
  | nil =>
    simp only [Memory.write] at h
    split at h <;> simp_all
  | cons d m ih =>
    obtain ⟨b, w⟩ := d
    simp only [Memory.write] at h
    split at h
    · split at h <;> simp_all
      tauto
    · split at h
      · split at h <;> simp_all
        tauto
      · rcases List.mem_cons.1 h with h | h
        · simp [h]
        · rcases ih h with h | h <;> simp [h]

theorem Memory.write_wf {m : Memory} (a : Nat) (v : Byte) (h : Memory.wf m) : Memory.wf (Memory.write m a v) := by
  induction m with
  | nil =>
    simp only [Memory.write]
    split
    · exact Memory.wf_nil
    · simp_all [Memory.wf]
  | cons d m ih =>
    obtain ⟨b, w⟩ := d
    obtain ⟨hlt, hw, hm⟩ := Memory.wf_cons.1 h
    simp only [Memory.write]
    split
    · next hab =>
      split
      · exact h
      · next hv =>
        refine Memory.wf_cons.2 ⟨?_, hv, h⟩
        rintro c hc
        rcases List.mem_cons.1 hc with rfl | hc
        · exact hab
        · exact lt_trans hab (hlt c hc)
    · next hab =>
      split
      · next hEq =>
        subst hEq
        split
        · exact hm
        · next hv => exact Memory.wf_cons.2 ⟨hlt, hv, hm⟩
      · next hne =>
        refine Memory.wf_cons.2 ⟨?_, hw, ih hm⟩
        intro c hc
        rcases Memory.mem_write hc with hc | rfl
        · exact hlt c hc
        · show b < a
          omega

theorem Memory.write_within {size : Nat} {m : Memory} {a : Nat} (v : Byte) (ha : a < size) (h : Memory.within size m) :
    Memory.within size (Memory.write m a v) := by
  intro c hc
  rcases Memory.mem_write hc with hc | rfl
  · exact h c hc
  · exact ha

/-- Reading any address after a write: the value written there, the value before elsewhere. -/
theorem Memory.read_write {m : Memory} (a : Nat) (v : Byte) (c : Nat) (h : Memory.wf m) :
    Memory.read (Memory.write m a v) c = if c = a then v else Memory.read m c := by
  induction m with
  | nil =>
    simp only [Memory.write]
    by_cases hv : v = unlistedByte
    · simp [hv, Memory.read]
    · by_cases h1 : c < a
      · simp [hv, Memory.read, h1, Nat.ne_of_lt h1]
      · by_cases h2 : c = a <;> simp [hv, Memory.read, h1, h2]
  | cons d m ih =>
    obtain ⟨b, w⟩ := d
    obtain ⟨hlt, hw, hm⟩ := Memory.wf_cons.1 h
    simp only [Memory.write]
    split
    · next hab =>
      split
      · next hv =>
        split
        · next hc => subst hc; simp [Memory.read, hab, hv]
        · rfl
      · next hv =>
        simp only [Memory.read]
        by_cases h1 : c < a
        · simp [h1, Nat.ne_of_lt h1, Nat.lt_trans h1 hab]
        · by_cases h2 : c = a
          · simp [h2]
          · simp [h1, h2]
    · next hab =>
      split
      · next hEq =>
        subst hEq
        split
        · next hv =>
          simp only [Memory.read]
          by_cases h1 : c < a
          · rw [Memory.read_eq_unlisted_of_lt (fun x hx => lt_trans h1 (hlt x hx))]
            simp [h1, Nat.ne_of_lt h1]
          · by_cases h2 : c = a
            · subst h2
              rw [Memory.read_eq_unlisted_of_lt hlt]
              simp [hv]
            · simp [h1, h2]
        · simp only [Memory.read]
          by_cases h1 : c < a
          · simp [h1, Nat.ne_of_lt h1]
          · by_cases h2 : c = a <;> simp [h1, h2]
      · next hne =>
        simp only [Memory.read, ih hm]
        by_cases h1 : c < b
        · simp only [h1, if_true]
          rw [if_neg (by omega)]
        · by_cases h2 : c = b
          · subst h2
            simp [Ne.symm hne]
          · simp [h1, h2]

/-- Equal contents are equal data. -/
theorem Memory.eq_of_read_eq {m m' : Memory} (h : Memory.wf m) (h' : Memory.wf m')
    (hr : ∀ a, Memory.read m a = Memory.read m' a) : m = m' := by
  induction m generalizing m' with
  | nil =>
    cases m' with
    | nil => rfl
    | cons d m' =>
      obtain ⟨b, w⟩ := d
      have := hr b
      simp [Memory.read] at this
      exact absurd this.symm (Memory.wf_cons.1 h').2.1
  | cons c m ih =>
    obtain ⟨b, w⟩ := c
    obtain ⟨hlt, hw, hm⟩ := Memory.wf_cons.1 h
    cases m' with
    | nil =>
      have := hr b
      simp [Memory.read] at this
      exact absurd this hw
    | cons d m' =>
      obtain ⟨b', w'⟩ := d
      obtain ⟨hlt', hw', hm'⟩ := Memory.wf_cons.1 h'
      have hb : b = b' := by
        rcases Nat.lt_trichotomy b b' with hlt | heq | hlt
        · have := hr b
          simp [Memory.read, hlt] at this
          exact absurd this hw
        · exact heq
        · have := hr b'
          simp [Memory.read, hlt] at this
          exact absurd this.symm hw'
      subst hb
      have hww : w = w' := by simpa [Memory.read] using hr b
      subst hww
      have : m = m' := by
        refine ih hm hm' fun a => ?_
        by_cases hab : b < a
        · have := hr a
          simp only [Memory.read] at this
          rwa [if_neg (by omega), if_neg (by omega), if_neg (by omega), if_neg (by omega)] at this
        · rw [Memory.read_eq_unlisted_of_lt fun x hx => lt_of_le_of_lt (by omega) (hlt x hx),
            Memory.read_eq_unlisted_of_lt fun x hx => lt_of_le_of_lt (by omega) (hlt' x hx)]
      rw [this]

theorem Memory.store_wf {m : Memory} (size a : Nat) (v : Byte) (h : Memory.wf m) : Memory.wf (Memory.store size m a v) := by
  unfold Memory.store
  split
  · exact Memory.write_wf a v h
  · exact h

theorem Memory.store_within {size : Nat} {m : Memory} (a : Nat) (v : Byte) (h : Memory.within size m) :
    Memory.within size (Memory.store size m a v) := by
  unfold Memory.store
  split
  · next ha => exact Memory.write_within v ha h
  · exact h

theorem Memory.read_store {m : Memory} (size a : Nat) (v : Byte) (c : Nat) (h : Memory.wf m) :
    Memory.read (Memory.store size m a v) c = if c = a ∧ a < size then v else Memory.read m c := by
  unfold Memory.store
  split
  · next ha => simp [Memory.read_write a v c h, ha]
  · next ha => simp [ha]

theorem Memory.storeBytes_wf {m : Memory} (size a : Nat) (bs : List Byte) (h : Memory.wf m) :
    Memory.wf (Memory.storeBytes size m a bs) := by
  induction bs generalizing m a with
  | nil => exact h
  | cons b bs ih => exact ih _ (Memory.store_wf size a b h)

theorem Memory.storeBytes_within {size : Nat} {m : Memory} (a : Nat) (bs : List Byte) (h : Memory.within size m) :
    Memory.within size (Memory.storeBytes size m a bs) := by
  induction bs generalizing m a with
  | nil => exact h
  | cons b bs ih => exact ih _ (Memory.store_within a b h)

/-- Reading any address after a run of bytes is written: the byte of the run there, the value before elsewhere and outside the memory. -/
theorem Memory.read_storeBytes {m : Memory} (size a : Nat) (bs : List Byte) (c : Nat) (h : Memory.wf m) :
    Memory.read (Memory.storeBytes size m a bs) c =
      if a ≤ c ∧ c < a + bs.length ∧ c < size then bs.getD (c - a) 0 else Memory.read m c := by
  induction bs generalizing m a with
  | nil =>
    simp only [Memory.storeBytes, List.length_nil]
    rw [if_neg (by omega)]
  | cons b bs ih =>
    simp only [Memory.storeBytes, List.length_cons]
    rw [ih _ (Memory.store_wf size a b h), Memory.read_store size a b c h]
    by_cases h1 : a + 1 ≤ c ∧ c < a + 1 + bs.length ∧ c < size
    · have hk : c - a = (c - (a + 1)) + 1 := by omega
      rw [if_pos h1, if_pos (by omega), hk, List.getD_cons_succ]
    · rw [if_neg h1]
      by_cases h2 : c = a ∧ a < size
      · rw [if_pos h2, if_pos (by omega), show c - a = 0 by omega, List.getD_cons_zero]
      · rw [if_neg h2, if_neg (by omega)]

/-- Two runs of bytes, one after the other, are one run. -/
theorem Memory.storeBytes_append (size : Nat) (m : Memory) (a : Nat) (xs ys : List Byte) :
    Memory.storeBytes size (Memory.storeBytes size m a xs) (a + xs.length) ys = Memory.storeBytes size m a (xs ++ ys) := by
  induction xs generalizing m a with
  | nil => rfl
  | cons x xs ih =>
    simp only [Memory.storeBytes, List.cons_append, List.length_cons]
    rw [← ih, show a + (xs.length + 1) = a + 1 + xs.length by omega]

@[simp] theorem Memory.length_loadBytes (sp : Space) (size : Nat) (m : Memory) (a n : Nat) :
    (Memory.loadBytes sp size m a n).length = n := by
  induction n generalizing a with
  | zero => rfl
  | succ n ih => simp [Memory.loadBytes, ih]

theorem Memory.getD_loadBytes (sp : Space) (size : Nat) (m : Memory) (a n k : Nat) (d : Byte) (hk : k < n) :
    (Memory.loadBytes sp size m a n).getD k d = Memory.load sp size m (a + k) := by
  induction n generalizing a k with
  | zero => omega
  | succ n ih =>
    cases k with
    | zero => simp [Memory.loadBytes]
    | succ k =>
      simp only [Memory.loadBytes, List.getD_cons_succ]
      rw [ih (a + 1) k (by omega), show a + 1 + k = a + (k + 1) by omega]

/-- A copied run depends on the bytes it copies alone. -/
theorem Memory.loadBytes_congr {sp : Space} {size size' : Nat} {m m' : Memory} {a a' n : Nat}
    (h : ∀ k < n, Memory.load sp size m (a + k) = Memory.load sp size' m' (a' + k)) :
    Memory.loadBytes sp size m a n = Memory.loadBytes sp size' m' a' n := by
  induction n generalizing a a' with
  | zero => rfl
  | succ n ih =>
    simp only [Memory.loadBytes]
    have h0 := h 0 (by omega)
    rw [Nat.add_zero, Nat.add_zero] at h0
    rw [h0, ih fun k hk => ?_]
    rw [show a + 1 + k = a + (k + 1) by omega, show a' + 1 + k = a' + (k + 1) by omega]
    exact h (k + 1) (by omega)

theorem Memory.load_of_lt {sp : Space} {size : Nat} {m : Memory} {a : Nat} (h : a < size) :
    Memory.load sp size m a = Memory.read m a := by
  simp [Memory.load, h]

theorem Memory.foldl_store_wf (size : Nat) (cells : List (Nat × Byte)) {m : Memory} (h : Memory.wf m) :
    Memory.wf (cells.foldl (fun m c => Memory.store size m c.1 c.2) m) := by
  induction cells generalizing m with
  | nil => exact h
  | cons c cs ih => exact ih (Memory.store_wf size c.1 c.2 h)

theorem Memory.foldl_store_within (size : Nat) (cells : List (Nat × Byte)) {m : Memory} (h : Memory.within size m) :
    Memory.within size (cells.foldl (fun m c => Memory.store size m c.1 c.2) m) := by
  induction cells generalizing m with
  | nil => exact h
  | cons c cs ih => exact ih (Memory.store_within c.1 c.2 h)

/-- A launch memory is canonical, whatever the free contents are (log 2). -/
theorem Memory.launch_wf (size : Nat) (cells : List (Nat × Byte)) : Memory.wf (Memory.launch size cells) :=
  Memory.foldl_store_wf size cells Memory.wf_nil

/-- A launch memory lists addresses of the memory alone (log 2). -/
theorem Memory.launch_within (size : Nat) (cells : List (Nat × Byte)) : Memory.within size (Memory.launch size cells) :=
  Memory.foldl_store_within size cells (by simp [Memory.within])

/-- Launching a canonical memory's own list gives that memory: every byte array is a launch contents (log 2). -/
theorem Memory.launch_self {size : Nat} {m : Memory} (h : Memory.wf m) (hw : Memory.within size m) : Memory.launch size m = m := by
  have key : ∀ (r l : Memory), Memory.wf (l ++ r) → Memory.within size r →
      r.foldl (fun m c => Memory.store size m c.1 c.2) l = l ++ r := by
    intro r
    induction r with
    | nil => intro l _ _; simp
    | cons c r ih =>
      intro l hl hr
      have hw : Memory.write l c.1 c.2 = l ++ [c] := by
        have hc : c.2 ≠ unlistedByte := hl.2 c (by simp)
        have hlt : ∀ d ∈ l, d.1 < c.1 := fun d hd => (List.pairwise_append.1 hl.1).2.2 d hd c (by simp)
        clear ih hl hr
        induction l with
        | nil => simp [Memory.write, hc]
        | cons d l ihl =>
          obtain ⟨b, w⟩ := d
          have hb : b < c.1 := hlt (b, w) (by simp)
          simp only [Memory.write, List.cons_append]
          rw [if_neg (by omega), if_neg (by omega), ihl fun d hd => hlt d (by simp [hd])]
      simp only [List.foldl_cons]
      rw [show Memory.store size l c.1 c.2 = l ++ [c] by simp [Memory.store, hr c (by simp), hw]]
      rw [ih (l ++ [c]) (by simpa using hl) fun d hd => hr d (by simp [hd])]
      simp
  simpa [Memory.launch] using key m [] (by simpa using h) hw

end Sys2Proof.Machine
end

