-- ==== Sys2Proof/Laws/State.lean ====
section
/-! SUPPORT. One lemma per field and per update of State, each by unfolding the update once. -/

namespace Sys2Proof.Machine

variable (s : State)

/-! State.setMem -/

@[simp] theorem State.setMem_params (sp : Space) (m : Memory) : (s.setMem sp m).params = s.params := by cases sp <;> rfl
@[simp] theorem State.setMem_status (sp : Space) (m : Memory) : (s.setMem sp m).status = s.status := by cases sp <;> rfl
@[simp] theorem State.setMem_result (sp : Space) (m : Memory) : (s.setMem sp m).result = s.result := by cases sp <;> rfl
@[simp] theorem State.setMem_offset (sp : Space) (m : Memory) : (s.setMem sp m).offset = s.offset := by cases sp <;> rfl
@[simp] theorem State.setMem_bufLen (sp : Space) (m : Memory) : (s.setMem sp m).bufLen = s.bufLen := by cases sp <;> rfl
@[simp] theorem State.setMem_flags (sp : Space) (m : Memory) : (s.setMem sp m).flags = s.flags := by cases sp <;> rfl
@[simp] theorem State.setMem_tsn (sp : Space) (m : Memory) : (s.setMem sp m).tsn = s.tsn := by cases sp <;> rfl
@[simp] theorem State.setMem_sid (sp : Space) (m : Memory) : (s.setMem sp m).sid = s.sid := by cases sp <;> rfl
@[simp] theorem State.setMem_ssn (sp : Space) (m : Memory) : (s.setMem sp m).ssn = s.ssn := by cases sp <;> rfl
@[simp] theorem State.setMem_ppid (sp : Space) (m : Memory) : (s.setMem sp m).ppid = s.ppid := by cases sp <;> rfl
@[simp] theorem State.setMem_userLen (sp : Space) (m : Memory) : (s.setMem sp m).userLen = s.userLen := by cases sp <;> rfl
@[simp] theorem State.setMem_pending (sp : Space) (m : Memory) : (s.setMem sp m).pending = s.pending := by cases sp <;> rfl
@[simp] theorem State.setMem_returned (sp : Space) (m : Memory) : (s.setMem sp m).returned = s.returned := by cases sp <;> rfl
@[simp] theorem State.setMem_resets (sp : Space) (m : Memory) : (s.setMem sp m).resets = s.resets := by cases sp <;> rfl
@[simp] theorem State.setMem_buf_buf (m : Memory) : (s.setMem .buf m).buf = m := rfl
@[simp] theorem State.setMem_buf_pram (m : Memory) : (s.setMem .buf m).pram = s.pram := rfl
@[simp] theorem State.setMem_pram_pram (m : Memory) : (s.setMem .pram m).pram = m := rfl
@[simp] theorem State.setMem_pram_buf (m : Memory) : (s.setMem .pram m).buf = s.buf := rfl
@[simp] theorem State.setMem_mem (sp : Space) (m : Memory) : (s.setMem sp m).mem sp = m := by cases sp <;> rfl
@[simp] theorem State.setMem_setMem (sp : Space) (m m' : Memory) : (s.setMem sp m).setMem sp m' = s.setMem sp m' := by cases sp <;> rfl
theorem State.setMem_mem_of_ne {sp sp' : Space} (m : Memory) (h : sp' ≠ sp) : (s.setMem sp m).mem sp' = s.mem sp' := by
  cases sp <;> cases sp' <;> first | rfl | exact absurd rfl h
@[simp] theorem State.setMem_memSize (sp sp' : Space) (m : Memory) : (s.setMem sp m).memSize sp' = s.memSize sp' := by
  cases sp <;> cases sp' <;> rfl
@[simp] theorem State.mem_buf : s.mem .buf = s.buf := rfl
@[simp] theorem State.mem_pram : s.mem .pram = s.pram := rfl
@[simp] theorem State.memSize_buf : s.memSize .buf = s.params.bufSize := rfl
@[simp] theorem State.memSize_pram : s.memSize .pram = Config.pramSize := rfl

/-! raise -/

@[simp] theorem raise_params (x : CmdError) : (raise x s).params = s.params := rfl
@[simp] theorem raise_status (x : CmdError) : (raise x s).status = setSticky x.sticky (setLast x.code s.status) := rfl
@[simp] theorem raise_result (x : CmdError) : (raise x s).result = 0#32 := rfl
@[simp] theorem raise_offset (x : CmdError) : (raise x s).offset = s.offset := rfl
@[simp] theorem raise_bufLen (x : CmdError) : (raise x s).bufLen = s.bufLen := rfl
@[simp] theorem raise_flags (x : CmdError) : (raise x s).flags = s.flags := rfl
@[simp] theorem raise_tsn (x : CmdError) : (raise x s).tsn = s.tsn := rfl
@[simp] theorem raise_sid (x : CmdError) : (raise x s).sid = s.sid := rfl
@[simp] theorem raise_ssn (x : CmdError) : (raise x s).ssn = s.ssn := rfl
@[simp] theorem raise_ppid (x : CmdError) : (raise x s).ppid = s.ppid := rfl
@[simp] theorem raise_userLen (x : CmdError) : (raise x s).userLen = s.userLen := rfl
@[simp] theorem raise_buf (x : CmdError) : (raise x s).buf = s.buf := rfl
@[simp] theorem raise_pram (x : CmdError) : (raise x s).pram = s.pram := rfl
@[simp] theorem raise_pending (x : CmdError) : (raise x s).pending = s.pending := rfl
@[simp] theorem raise_returned (x : CmdError) : (raise x s).returned = s.returned := rfl
@[simp] theorem raise_resets (x : CmdError) : (raise x s).resets = s.resets := rfl

/-! finishOk -/

@[simp] theorem finishOk_params (r : Nat) : (finishOk r s).params = s.params := rfl
@[simp] theorem finishOk_status (r : Nat) : (finishOk r s).status = setLast okCode s.status := rfl
@[simp] theorem finishOk_result (r : Nat) : (finishOk r s).result = BitVec.ofNat 32 r := rfl
@[simp] theorem finishOk_offset (r : Nat) : (finishOk r s).offset = s.offset := rfl
@[simp] theorem finishOk_bufLen (r : Nat) : (finishOk r s).bufLen = s.bufLen := rfl
@[simp] theorem finishOk_flags (r : Nat) : (finishOk r s).flags = s.flags := rfl
@[simp] theorem finishOk_tsn (r : Nat) : (finishOk r s).tsn = s.tsn := rfl
@[simp] theorem finishOk_sid (r : Nat) : (finishOk r s).sid = s.sid := rfl
@[simp] theorem finishOk_ssn (r : Nat) : (finishOk r s).ssn = s.ssn := rfl
@[simp] theorem finishOk_ppid (r : Nat) : (finishOk r s).ppid = s.ppid := rfl
@[simp] theorem finishOk_userLen (r : Nat) : (finishOk r s).userLen = s.userLen := rfl
@[simp] theorem finishOk_buf (r : Nat) : (finishOk r s).buf = s.buf := rfl
@[simp] theorem finishOk_pram (r : Nat) : (finishOk r s).pram = s.pram := rfl
@[simp] theorem finishOk_pending (r : Nat) : (finishOk r s).pending = s.pending := rfl
@[simp] theorem finishOk_returned (r : Nat) : (finishOk r s).returned = s.returned := rfl
@[simp] theorem finishOk_resets (r : Nat) : (finishOk r s).resets = s.resets := rfl

/-! refuse -/

@[simp] theorem refuse_params (b : Sticky) : (refuse b s).params = s.params := rfl
@[simp] theorem refuse_status (b : Sticky) : (refuse b s).status = setSticky b s.status := rfl
@[simp] theorem refuse_result (b : Sticky) : (refuse b s).result = s.result := rfl
@[simp] theorem refuse_offset (b : Sticky) : (refuse b s).offset = s.offset := rfl
@[simp] theorem refuse_bufLen (b : Sticky) : (refuse b s).bufLen = s.bufLen := rfl
@[simp] theorem refuse_flags (b : Sticky) : (refuse b s).flags = s.flags := rfl
@[simp] theorem refuse_tsn (b : Sticky) : (refuse b s).tsn = s.tsn := rfl
@[simp] theorem refuse_sid (b : Sticky) : (refuse b s).sid = s.sid := rfl
@[simp] theorem refuse_ssn (b : Sticky) : (refuse b s).ssn = s.ssn := rfl
@[simp] theorem refuse_ppid (b : Sticky) : (refuse b s).ppid = s.ppid := rfl
@[simp] theorem refuse_userLen (b : Sticky) : (refuse b s).userLen = s.userLen := rfl
@[simp] theorem refuse_buf (b : Sticky) : (refuse b s).buf = s.buf := rfl
@[simp] theorem refuse_pram (b : Sticky) : (refuse b s).pram = s.pram := rfl
@[simp] theorem refuse_pending (b : Sticky) : (refuse b s).pending = s.pending := rfl
@[simp] theorem refuse_returned (b : Sticky) : (refuse b s).returned = s.returned := rfl
@[simp] theorem refuse_resets (b : Sticky) : (refuse b s).resets = s.resets := rfl

/-! acknowledge -/

@[simp] theorem acknowledge_params (v : Word) : (acknowledge v s).params = s.params := rfl
@[simp] theorem acknowledge_status (v : Word) : (acknowledge v s).status = clearSticky v s.status := rfl
@[simp] theorem acknowledge_result (v : Word) : (acknowledge v s).result = s.result := rfl
@[simp] theorem acknowledge_offset (v : Word) : (acknowledge v s).offset = s.offset := rfl
@[simp] theorem acknowledge_bufLen (v : Word) : (acknowledge v s).bufLen = s.bufLen := rfl
@[simp] theorem acknowledge_flags (v : Word) : (acknowledge v s).flags = s.flags := rfl
@[simp] theorem acknowledge_tsn (v : Word) : (acknowledge v s).tsn = s.tsn := rfl
@[simp] theorem acknowledge_sid (v : Word) : (acknowledge v s).sid = s.sid := rfl
@[simp] theorem acknowledge_ssn (v : Word) : (acknowledge v s).ssn = s.ssn := rfl
@[simp] theorem acknowledge_ppid (v : Word) : (acknowledge v s).ppid = s.ppid := rfl
@[simp] theorem acknowledge_userLen (v : Word) : (acknowledge v s).userLen = s.userLen := rfl
@[simp] theorem acknowledge_buf (v : Word) : (acknowledge v s).buf = s.buf := rfl
@[simp] theorem acknowledge_pram (v : Word) : (acknowledge v s).pram = s.pram := rfl
@[simp] theorem acknowledge_pending (v : Word) : (acknowledge v s).pending = s.pending := rfl
@[simp] theorem acknowledge_returned (v : Word) : (acknowledge v s).returned = s.returned := rfl
@[simp] theorem acknowledge_resets (v : Word) : (acknowledge v s).resets = s.resets := rfl

/-! answer -/

@[simp] theorem answer_params (v : BusValue) : (answer v s).params = s.params := rfl
@[simp] theorem answer_status (v : BusValue) : (answer v s).status = s.status := rfl
@[simp] theorem answer_result (v : BusValue) : (answer v s).result = s.result := rfl
@[simp] theorem answer_offset (v : BusValue) : (answer v s).offset = s.offset := rfl
@[simp] theorem answer_bufLen (v : BusValue) : (answer v s).bufLen = s.bufLen := rfl
@[simp] theorem answer_flags (v : BusValue) : (answer v s).flags = s.flags := rfl
@[simp] theorem answer_tsn (v : BusValue) : (answer v s).tsn = s.tsn := rfl
@[simp] theorem answer_sid (v : BusValue) : (answer v s).sid = s.sid := rfl
@[simp] theorem answer_ssn (v : BusValue) : (answer v s).ssn = s.ssn := rfl
@[simp] theorem answer_ppid (v : BusValue) : (answer v s).ppid = s.ppid := rfl
@[simp] theorem answer_userLen (v : BusValue) : (answer v s).userLen = s.userLen := rfl
@[simp] theorem answer_buf (v : BusValue) : (answer v s).buf = s.buf := rfl
@[simp] theorem answer_pram (v : BusValue) : (answer v s).pram = s.pram := rfl
@[simp] theorem answer_pending (v : BusValue) : (answer v s).pending = s.pending := rfl
@[simp] theorem answer_returned (v : BusValue) : (answer v s).returned = s.returned ++ [v] := rfl
@[simp] theorem answer_resets (v : BusValue) : (answer v s).resets = s.resets := rfl

/-! loadChunk -/

@[simp] theorem loadChunk_params (f : BitVec 3) (t : Word) (i q : Half) (p : Word) (n : Half) : (loadChunk f t i q p n s).params = s.params := rfl
@[simp] theorem loadChunk_status (f : BitVec 3) (t : Word) (i q : Half) (p : Word) (n : Half) : (loadChunk f t i q p n s).status = s.status := rfl
@[simp] theorem loadChunk_result (f : BitVec 3) (t : Word) (i q : Half) (p : Word) (n : Half) : (loadChunk f t i q p n s).result = s.result := rfl
@[simp] theorem loadChunk_offset (f : BitVec 3) (t : Word) (i q : Half) (p : Word) (n : Half) : (loadChunk f t i q p n s).offset = s.offset := rfl
@[simp] theorem loadChunk_bufLen (f : BitVec 3) (t : Word) (i q : Half) (p : Word) (n : Half) : (loadChunk f t i q p n s).bufLen = s.bufLen := rfl
@[simp] theorem loadChunk_flags (f : BitVec 3) (t : Word) (i q : Half) (p : Word) (n : Half) : (loadChunk f t i q p n s).flags = f := rfl
@[simp] theorem loadChunk_tsn (f : BitVec 3) (t : Word) (i q : Half) (p : Word) (n : Half) : (loadChunk f t i q p n s).tsn = t := rfl
@[simp] theorem loadChunk_sid (f : BitVec 3) (t : Word) (i q : Half) (p : Word) (n : Half) : (loadChunk f t i q p n s).sid = i := rfl
@[simp] theorem loadChunk_ssn (f : BitVec 3) (t : Word) (i q : Half) (p : Word) (n : Half) : (loadChunk f t i q p n s).ssn = q := rfl
@[simp] theorem loadChunk_ppid (f : BitVec 3) (t : Word) (i q : Half) (p : Word) (n : Half) : (loadChunk f t i q p n s).ppid = p := rfl
@[simp] theorem loadChunk_userLen (f : BitVec 3) (t : Word) (i q : Half) (p : Word) (n : Half) : (loadChunk f t i q p n s).userLen = n := rfl
@[simp] theorem loadChunk_buf (f : BitVec 3) (t : Word) (i q : Half) (p : Word) (n : Half) : (loadChunk f t i q p n s).buf = s.buf := rfl
@[simp] theorem loadChunk_pram (f : BitVec 3) (t : Word) (i q : Half) (p : Word) (n : Half) : (loadChunk f t i q p n s).pram = s.pram := rfl
@[simp] theorem loadChunk_pending (f : BitVec 3) (t : Word) (i q : Half) (p : Word) (n : Half) : (loadChunk f t i q p n s).pending = s.pending := rfl
@[simp] theorem loadChunk_returned (f : BitVec 3) (t : Word) (i q : Half) (p : Word) (n : Half) : (loadChunk f t i q p n s).returned = s.returned := rfl
@[simp] theorem loadChunk_resets (f : BitVec 3) (t : Word) (i q : Half) (p : Word) (n : Half) : (loadChunk f t i q p n s).resets = s.resets := rfl

/-! State.launched: the reset values (70_reset R230) -/

@[simp] theorem State.launched_params (p : Params) (b r : Memory) (n : Nat) (es : List HostEvent) (vs : List BusValue) :
    (State.launched p b r n es vs).params = p := rfl
@[simp] theorem State.launched_status (p : Params) (b r : Memory) (n : Nat) (es : List HostEvent) (vs : List BusValue) :
    (State.launched p b r n es vs).status = 0#32 := rfl
@[simp] theorem State.launched_result (p : Params) (b r : Memory) (n : Nat) (es : List HostEvent) (vs : List BusValue) :
    (State.launched p b r n es vs).result = 0#32 := rfl
@[simp] theorem State.launched_offset (p : Params) (b r : Memory) (n : Nat) (es : List HostEvent) (vs : List BusValue) :
    (State.launched p b r n es vs).offset = 0#32 := rfl
@[simp] theorem State.launched_bufLen (p : Params) (b r : Memory) (n : Nat) (es : List HostEvent) (vs : List BusValue) :
    (State.launched p b r n es vs).bufLen = BitVec.ofNat 32 p.bufSize := rfl
@[simp] theorem State.launched_flags (p : Params) (b r : Memory) (n : Nat) (es : List HostEvent) (vs : List BusValue) :
    (State.launched p b r n es vs).flags = p.defaultFlags := rfl
@[simp] theorem State.launched_tsn (p : Params) (b r : Memory) (n : Nat) (es : List HostEvent) (vs : List BusValue) :
    (State.launched p b r n es vs).tsn = 0#32 := rfl
@[simp] theorem State.launched_sid (p : Params) (b r : Memory) (n : Nat) (es : List HostEvent) (vs : List BusValue) :
    (State.launched p b r n es vs).sid = 0#16 := rfl
@[simp] theorem State.launched_ssn (p : Params) (b r : Memory) (n : Nat) (es : List HostEvent) (vs : List BusValue) :
    (State.launched p b r n es vs).ssn = 0#16 := rfl
@[simp] theorem State.launched_ppid (p : Params) (b r : Memory) (n : Nat) (es : List HostEvent) (vs : List BusValue) :
    (State.launched p b r n es vs).ppid = 0#32 := rfl
@[simp] theorem State.launched_userLen (p : Params) (b r : Memory) (n : Nat) (es : List HostEvent) (vs : List BusValue) :
    (State.launched p b r n es vs).userLen = 0#16 := rfl
@[simp] theorem State.launched_buf (p : Params) (b r : Memory) (n : Nat) (es : List HostEvent) (vs : List BusValue) :
    (State.launched p b r n es vs).buf = b := rfl
@[simp] theorem State.launched_pram (p : Params) (b r : Memory) (n : Nat) (es : List HostEvent) (vs : List BusValue) :
    (State.launched p b r n es vs).pram = r := rfl
@[simp] theorem State.launched_pending (p : Params) (b r : Memory) (n : Nat) (es : List HostEvent) (vs : List BusValue) :
    (State.launched p b r n es vs).pending = es := rfl
@[simp] theorem State.launched_returned (p : Params) (b r : Memory) (n : Nat) (es : List HostEvent) (vs : List BusValue) :
    (State.launched p b r n es vs).returned = vs := rfl
@[simp] theorem State.launched_resets (p : Params) (b r : Memory) (n : Nat) (es : List HostEvent) (vs : List BusValue) :
    (State.launched p b r n es vs).resets = n := rfl

end Sys2Proof.Machine
end

