-- ==== Sys2Proof/Laws/Ops.lean ====
section
/-! SUPPORT. What each shared operation can do, said once: the fields of STATUS, big-endian fields, the memory primitives. -/

namespace Sys2Proof.Machine

/-! STATUS fields (10_state R23). -/

/-- Bit k of a STATUS with LAST written. -/
theorem getLsbD_setLast (code : BitVec 4) (st : Word) (k : Nat) :
    (setLast code st).getLsbD k = if k < 4 then code.getLsbD k else st.getLsbD k := by
  by_cases h : k < 32
  · have key : ∀ k : Fin 32, (0xFFFFFFF0#32).getLsbD k = decide (4 ≤ k.val) := by decide
    have := key ⟨k, h⟩
    simp only at this
    simp only [setLast, BitVec.getLsbD_or, BitVec.getLsbD_and, this, BitVec.getLsbD_setWidth, h, decide_true, Bool.true_and]
    by_cases h4 : k < 4
    · rw [decide_eq_false (by omega), Bool.and_false, Bool.false_or, if_pos h4]
    · rw [decide_eq_true (by omega), Bool.and_true, BitVec.getLsbD_of_ge code k (by omega), Bool.or_false, if_neg h4]
  · rw [BitVec.getLsbD_of_ge _ _ (by omega), if_neg (by omega), BitVec.getLsbD_of_ge _ _ (by omega)]

theorem Sticky.bit_range (b : Sticky) : 8 ≤ b.bit ∧ b.bit ≤ 12 := by cases b <;> decide

theorem Sticky.bit_injective {b c : Sticky} (h : b.bit = c.bit) : b = c := by
  cases b <;> cases c <;> first | rfl | exact absurd h (by decide)

/-- Bit k of a STATUS with a sticky bit set. -/
theorem getLsbD_setSticky (b : Sticky) (st : Word) (k : Nat) :
    (setSticky b st).getLsbD k = (st.getLsbD k || decide (k = b.bit)) := by
  have key : ∀ (b : Sticky) (k : Fin 32), (1#32 <<< b.bit).getLsbD k = decide (k.val = b.bit) := by
    intro b
    cases b <;> decide
  by_cases h : k < 32
  · have := key b ⟨k, h⟩
    simp only at this
    simp only [setSticky, BitVec.getLsbD_or, this]
  · have := b.bit_range
    rw [BitVec.getLsbD_of_ge _ _ (by omega), BitVec.getLsbD_of_ge _ _ (by omega), decide_eq_false (by omega)]
    rfl

/-- Bit k of a STATUS after the host's write of v. -/
theorem getLsbD_clearSticky (v st : Word) (k : Nat) :
    (clearSticky v st).getLsbD k = (st.getLsbD k && !(v.getLsbD k && decide (8 ≤ k ∧ k ≤ 12))) := by
  by_cases h : k < 32
  · have key : ∀ k : Fin 32, (0x00001F00#32).getLsbD k = decide (8 ≤ k.val ∧ k.val ≤ 12) := by decide
    have := key ⟨k, h⟩
    simp only at this
    simp only [clearSticky, BitVec.getLsbD_and, BitVec.getLsbD_not, h, decide_true, Bool.true_and, this]
  · rw [BitVec.getLsbD_of_ge _ _ (by omega), BitVec.getLsbD_of_ge st _ (by omega)]
    rfl

@[simp] theorem statusLast_setLast (code : BitVec 4) (st : Word) : statusLast (setLast code st) = code := by
  apply BitVec.eq_of_getLsbD_eq
  intro k hk
  simp [statusLast, getLsbD_setLast, hk]

@[simp] theorem statusLast_setSticky (b : Sticky) (st : Word) : statusLast (setSticky b st) = statusLast st := by
  apply BitVec.eq_of_getLsbD_eq
  intro k hk
  have := b.bit_range
  simp only [statusLast, BitVec.getLsbD_extractLsb', Nat.zero_add, getLsbD_setSticky]
  rw [decide_eq_false (p := k = b.bit) (by omega), Bool.or_false]

@[simp] theorem statusLast_clearSticky (v st : Word) : statusLast (clearSticky v st) = statusLast st := by
  apply BitVec.eq_of_getLsbD_eq
  intro k hk
  simp only [statusLast, BitVec.getLsbD_extractLsb', Nat.zero_add, getLsbD_clearSticky]
  rw [decide_eq_false (p := 8 ≤ k ∧ k ≤ 12) (by omega)]
  simp

@[simp] theorem statusSticky_setLast (b : Sticky) (code : BitVec 4) (st : Word) :
    statusSticky b (setLast code st) = statusSticky b st := by
  have := b.bit_range
  simp only [statusSticky, getLsbD_setLast]
  rw [if_neg (by omega)]

@[simp] theorem statusSticky_setSticky (b c : Sticky) (st : Word) :
    statusSticky b (setSticky c st) = (statusSticky b st || decide (b = c)) := by
  simp only [statusSticky, getLsbD_setSticky]
  congr 1
  exact decide_eq_decide.2 ⟨fun h => Sticky.bit_injective h, fun h => by rw [h]⟩

@[simp] theorem statusSticky_clearSticky (b : Sticky) (v st : Word) :
    statusSticky b (clearSticky v st) = (statusSticky b st && !v.getLsbD b.bit) := by
  have := b.bit_range
  simp only [statusSticky, getLsbD_clearSticky]
  rw [decide_eq_true (p := 8 ≤ b.bit ∧ b.bit ≤ 12) this, Bool.and_true]

/-- A bit of the reserved part of STATUS. -/
theorem getLsbD_statusReserved (st : Word) (k : Nat) :
    (statusReserved st).getLsbD k = (st.getLsbD k && decide (4 ≤ k ∧ k < 8 ∨ 13 ≤ k)) := by
  by_cases h : k < 32
  · have key : ∀ k : Fin 32, (0xFFFFE0F0#32).getLsbD k = decide (4 ≤ k.val ∧ k.val < 8 ∨ 13 ≤ k.val) := by decide
    have := key ⟨k, h⟩
    simp only at this
    simp only [statusReserved, BitVec.getLsbD_and, this]
  · rw [BitVec.getLsbD_of_ge _ _ (by omega), BitVec.getLsbD_of_ge st _ (by omega)]
    rfl

@[simp] theorem statusReserved_setLast (code : BitVec 4) (st : Word) : statusReserved (setLast code st) = statusReserved st := by
  apply BitVec.eq_of_getLsbD_eq
  intro k hk
  simp only [getLsbD_statusReserved, getLsbD_setLast]
  by_cases h : k < 4
  · rw [decide_eq_false (by omega), Bool.and_false, Bool.and_false]
  · rw [if_neg h]

@[simp] theorem statusReserved_setSticky (b : Sticky) (st : Word) : statusReserved (setSticky b st) = statusReserved st := by
  apply BitVec.eq_of_getLsbD_eq
  intro k hk
  have := b.bit_range
  simp only [getLsbD_statusReserved, getLsbD_setSticky]
  by_cases h : k = b.bit
  · rw [decide_eq_false (p := 4 ≤ k ∧ k < 8 ∨ 13 ≤ k) (by omega), Bool.and_false, Bool.and_false]
  · rw [decide_eq_false h, Bool.or_false]

@[simp] theorem statusReserved_clearSticky (v st : Word) : statusReserved (clearSticky v st) = statusReserved st := by
  apply BitVec.eq_of_getLsbD_eq
  intro k hk
  simp only [getLsbD_statusReserved, getLsbD_clearSticky]
  by_cases h : 8 ≤ k ∧ k ≤ 12
  · rw [decide_eq_false (p := 4 ≤ k ∧ k < 8 ∨ 13 ≤ k) (by omega), Bool.and_false, Bool.and_false]
  · rw [decide_eq_false h, Bool.and_false, Bool.not_false, Bool.and_true]

/-- What raise does to STATUS, bit by bit (60_exceptions R203). -/
theorem getLsbD_raise (x : CmdError) (s : State) (k : Nat) (hk : 4 ≤ k) :
    (raise x s).status.getLsbD k = (s.status.getLsbD k || decide (k = x.sticky.bit)) := by
  rw [raise_status, getLsbD_setSticky, getLsbD_setLast, if_neg (by omega)]

/-- A command that ends OK changes no sticky bit (60_exceptions R201). -/
theorem getLsbD_finishOk (r : Nat) (s : State) (k : Nat) (hk : 4 ≤ k) : (finishOk r s).status.getLsbD k = s.status.getLsbD k := by
  rw [finishOk_status, getLsbD_setLast, if_neg (by omega)]

/-! Flags (40_lengths R104, R105). -/

@[simp] theorem decomposeFlags_composeFlags (f : BitVec 3) : decomposeFlags (composeFlags f) = f := by decide +revert

theorem composeFlags_decomposeFlags (b : Byte) : composeFlags (decomposeFlags b) = b &&& 0x07 := by decide +revert

@[simp] theorem HeldChunk_flags_heldChunk (s : State) : (heldChunk s).flags = s.flags := by
  have key : ∀ f : BitVec 3, BitVec.ofBool (flagU f) ++ BitVec.ofBool (flagB f) ++ BitVec.ofBool (flagE f) = f := by decide
  exact key s.flags

/-! Lengths (40_lengths R100 to R103). -/

theorem declaredLength_eq (n : Nat) : declaredLength n = 16 + n := rfl

/-- The aligner: a multiple of 4, at most 3 above the declared length. -/
theorem wireLength_spec (d : Nat) : d ≤ wireLength d ∧ wireLength d ≤ d + 3 ∧ wireLength d % 4 = 0 := by
  unfold wireLength
  omega

/-! Big-endian fields (20_memory R50 to R55). -/

@[simp] theorem length_beBytes (n : Nat) (v : BitVec (8 * n)) : (beBytes n v).length = n := by simp [beBytes]

@[simp] theorem length_beBytes16 (v : Half) : (beBytes16 v).length = 2 := rfl

@[simp] theorem length_beBytes32 (v : Word) : (beBytes32 v).length = 4 := rfl

theorem beBytes_one (v : Byte) : beBytes 1 v = [v] := by
  simp [beBytes]

theorem beBytes16_eq (v : Half) : beBytes16 v = [v.extractLsb' 8 8, v.extractLsb' 0 8] := rfl

theorem beBytes32_eq (v : Word) :
    beBytes32 v = [v.extractLsb' 24 8, v.extractLsb' 16 8, v.extractLsb' 8 8, v.extractLsb' 0 8] := rfl

theorem beValue_one (b : Byte) : beValue 1 [b] = b := by
  simp [beValue]

/-- A 16-bit field read is its first byte above its second. -/
theorem beValue_two (b0 b1 : Byte) : beValue 2 [b0, b1] = b0 ++ b1 := by
  apply BitVec.eq_of_getLsbD_eq
  intro k hk
  simp only [beValue, List.foldl_cons, List.foldl_nil, BitVec.getLsbD_or, BitVec.getLsbD_shiftLeft, BitVec.getLsbD_setWidth,
    BitVec.getLsbD_append, BitVec.getLsbD_zero]
  by_cases h : k < 8
  · simp [h, hk]
  · have : k - 8 < 8 := by omega
    simp [h, hk, BitVec.getLsbD_of_ge b1 k (by omega), show k - 8 < 16 by omega]

/-- A 32-bit field read is its four bytes, the first most significant. -/
theorem beValue_four (b0 b1 b2 b3 : Byte) : beValue 4 [b0, b1, b2, b3] = b0 ++ b1 ++ b2 ++ b3 := by
  apply BitVec.eq_of_getLsbD_eq
  intro k hk
  simp only [beValue, List.foldl_cons, List.foldl_nil, BitVec.getLsbD_or, BitVec.getLsbD_shiftLeft, BitVec.getLsbD_setWidth,
    BitVec.getLsbD_append, BitVec.getLsbD_zero]
  by_cases h : k < 8
  · simp [h, hk]
  · by_cases h1 : k - 8 < 8
    · simp [h, h1, hk, BitVec.getLsbD_of_ge b3 k (by omega), show k - 8 < 32 by omega]
    · by_cases h2 : k - 8 - 8 < 8
      · simp [h, h1, h2, hk, BitVec.getLsbD_of_ge b3 k (by omega), BitVec.getLsbD_of_ge b2 (k - 8) (by omega),
          show k - 8 < 32 by omega, show k - 8 - 8 < 32 by omega]
      · simp [h, h1, h2, hk, BitVec.getLsbD_of_ge b3 k (by omega), BitVec.getLsbD_of_ge b2 (k - 8) (by omega),
          BitVec.getLsbD_of_ge b1 (k - 8 - 8) (by omega), show k - 8 < 32 by omega, show k - 8 - 8 < 32 by omega,
          show k - 8 - 8 - 8 < 32 by omega]

/-- Writing a 16-bit field in wire order and reading it back gives it. -/
@[simp] theorem beValue_beBytes16 (v : Half) : beValue 2 (beBytes16 v) = v := by
  rw [beBytes16_eq, beValue_two]
  apply BitVec.eq_of_getLsbD_eq
  intro k hk
  simp only [BitVec.getLsbD_append, BitVec.getLsbD_extractLsb']
  by_cases h : k < 8
  · simp [h]
  · simp [h, show 8 + (k - 8) = k by omega, show k - 8 < 8 by omega]

/-- Writing a 32-bit field in wire order and reading it back gives it. -/
@[simp] theorem beValue_beBytes32 (v : Word) : beValue 4 (beBytes32 v) = v := by
  rw [beBytes32_eq, beValue_four]
  apply BitVec.eq_of_getLsbD_eq
  intro k hk
  simp only [BitVec.getLsbD_append, BitVec.getLsbD_extractLsb']
  by_cases h : k < 8
  · simp [h]
  · by_cases h1 : k - 8 < 8
    · simp [h, h1, show 8 + (k - 8) = k by omega]
    · by_cases h2 : k - 8 - 8 < 8
      · simp [h, h1, h2, show 16 + (k - 8 - 8) = k by omega]
      · simp [h, h1, h2, show 24 + (k - 8 - 8 - 8) = k by omega, show k - 8 - 8 - 8 < 8 by omega]

/-! The memory primitives (20_memory R52 to R57). -/

@[simp] theorem length_bytesAt (sp : Space) (a n : Nat) (s : State) : (bytesAt sp a n s).length = n := by simp [bytesAt]

theorem getD_bytesAt (sp : Space) (a n k : Nat) (s : State) (d : Byte) (hk : k < n) :
    (bytesAt sp a n s).getD k d = byteAt sp (a + k) s :=
  Memory.getD_loadBytes sp _ _ a n k d hk

/-- Inside its memory the engine reads what the host reads. -/
theorem byteAt_of_lt {sp : Space} {a : Nat} {s : State} (h : a < s.memSize sp) : byteAt sp a s = Memory.read (s.mem sp) a :=
  Memory.load_of_lt h

/-- A copy depends on the copied bytes alone. -/
theorem bytesAt_congr {sp : Space} {a n : Nat} {s t : State} (h : ∀ k < n, byteAt sp (a + k) s = byteAt sp (a + k) t) :
    bytesAt sp a n s = bytesAt sp a n t :=
  Memory.loadBytes_congr h

theorem memRead_one (sp : Space) (a : Nat) (s : State) : memRead sp a 1 s = byteAt sp a s := by
  show beValue 1 [byteAt sp a s] = _
  exact beValue_one _

theorem readU16BE_eq (sp : Space) (a : Nat) (s : State) : readU16BE sp a s = byteAt sp a s ++ byteAt sp (a + 1) s := by
  show beValue 2 [byteAt sp a s, byteAt sp (a + 1) s] = _
  exact beValue_two _ _

theorem readU32BE_eq (sp : Space) (a : Nat) (s : State) :
    readU32BE sp a s = byteAt sp a s ++ byteAt sp (a + 1) s ++ byteAt sp (a + 2) s ++ byteAt sp (a + 3) s := by
  show beValue 4 [byteAt sp a s, byteAt sp (a + 1) s, byteAt sp (a + 1 + 1) s, byteAt sp (a + 1 + 1 + 1) s] = _
  exact beValue_four _ _ _ _

/-- Every read of fields depends on the bytes of the field alone. -/
theorem memRead_congr {sp : Space} {a n : Nat} {s t : State} (h : ∀ k < n, byteAt sp (a + k) s = byteAt sp (a + k) t) :
    memRead sp a n s = memRead sp a n t := by
  simp only [memRead, bytesAt_congr h]

/-- A header read back from its bytes. -/
theorem readHeader_eq (a : Nat) (s : State) :
    readHeader a s = ⟨byteAt .buf a s, byteAt .buf (a + 1) s, byteAt .buf (a + 2) s ++ byteAt .buf (a + 3) s⟩ := by
  simp only [readHeader, memRead_one, readU16BE_eq]

/-- A run of bytes written, as a change of one memory. -/
theorem putBytes_def (sp : Space) (a : Nat) (bs : List Byte) (s : State) :
    putBytes sp a bs s = s.setMem sp (Memory.storeBytes (s.memSize sp) (s.mem sp) a bs) := rfl

/-- Two runs of bytes written one after the other are one run. -/
theorem putBytes_append (sp : Space) (a a' : Nat) (xs ys : List Byte) (s : State) (h : a' = a + xs.length) :
    putBytes sp a' ys (putBytes sp a xs s) = putBytes sp a (xs ++ ys) s := by
  subst h
  simp [putBytes_def, Memory.storeBytes_append]

/-- What a run of bytes written leaves at each address of its memory. -/
theorem read_putBytes (sp : Space) (a : Nat) (bs : List Byte) (s : State) (c : Nat) (h : Memory.wf (s.mem sp)) :
    Memory.read ((putBytes sp a bs s).mem sp) c =
      if a ≤ c ∧ c < a + bs.length ∧ c < s.memSize sp then bs.getD (c - a) 0 else Memory.read (s.mem sp) c := by
  rw [putBytes_def, State.setMem_mem, Memory.read_storeBytes _ _ _ _ h]

/-- The engine's view of each byte after a run of bytes is written. -/
theorem byteAt_putBytes (sp : Space) (a : Nat) (bs : List Byte) (s : State) (c : Nat) (h : Memory.wf (s.mem sp)) :
    byteAt sp c (putBytes sp a bs s) =
      if a ≤ c ∧ c < a + bs.length ∧ c < s.memSize sp then bs.getD (c - a) 0 else byteAt sp c s := by
  simp only [byteAt, Memory.load, putBytes_def, State.setMem_memSize, State.setMem_mem]
  by_cases hc : c < s.memSize sp
  · simp only [hc, if_true, Memory.read_storeBytes _ _ _ _ h]
  · simp only [hc, if_false, and_false]

/-- byteAt_putBytes for BUF. -/
theorem byteAt_putBytes_buf (a : Nat) (bs : List Byte) (s : State) (c : Nat) (h : Memory.wf s.buf) :
    byteAt .buf c (putBytes .buf a bs s) =
      if a ≤ c ∧ c < a + bs.length ∧ c < s.params.bufSize then bs.getD (c - a) 0 else byteAt .buf c s :=
  byteAt_putBytes .buf a bs s c h

/-- byteAt_putBytes for PRAM. -/
theorem byteAt_putBytes_pram (a : Nat) (bs : List Byte) (s : State) (c : Nat) (h : Memory.wf s.pram) :
    byteAt .pram c (putBytes .pram a bs s) =
      if a ≤ c ∧ c < a + bs.length ∧ c < Config.pramSize then bs.getD (c - a) 0 else byteAt .pram c s :=
  byteAt_putBytes .pram a bs s c h

/-- How a command ends changes no byte of the memories. -/
@[simp] theorem byteAt_raise (sp : Space) (a : Nat) (x : CmdError) (s : State) : byteAt sp a (raise x s) = byteAt sp a s := by
  cases sp <;> rfl

@[simp] theorem byteAt_finishOk (sp : Space) (a r : Nat) (s : State) : byteAt sp a (finishOk r s) = byteAt sp a s := by
  cases sp <;> rfl

@[simp] theorem byteAt_refuse (sp : Space) (a : Nat) (b : Sticky) (s : State) : byteAt sp a (refuse b s) = byteAt sp a s := by
  cases sp <;> rfl

@[simp] theorem byteAt_loadChunk (sp : Space) (a : Nat) (f : BitVec 3) (t : Word) (i q : Half) (p : Word) (n : Half) (s : State) :
    byteAt sp a (loadChunk f t i q p n s) = byteAt sp a s := by
  cases sp <;> rfl

/-- A run of bytes written leaves the other memory alone. -/
theorem byteAt_putBytes_of_ne {sp sp' : Space} (a : Nat) (bs : List Byte) (s : State) (c : Nat) (h : sp' ≠ sp) :
    byteAt sp' c (putBytes sp a bs s) = byteAt sp' c s := by
  simp only [byteAt, putBytes_def, State.setMem_memSize, State.setMem_mem_of_ne _ _ h]

/-- Both memories stay legal when a run of bytes is written. -/
theorem putBytes_legal (sp sp' : Space) (a : Nat) (bs : List Byte) (s : State)
    (h : Memory.wf (s.mem sp') ∧ Memory.within (s.memSize sp') (s.mem sp')) :
    Memory.wf ((putBytes sp a bs s).mem sp') ∧ Memory.within (s.memSize sp') ((putBytes sp a bs s).mem sp') := by
  by_cases hsp : sp' = sp
  · subst hsp
    rw [putBytes_def, State.setMem_mem]
    exact ⟨Memory.storeBytes_wf _ _ _ h.1, Memory.storeBytes_within _ _ h.2⟩
  · rw [putBytes_def, State.setMem_mem_of_ne _ _ hsp]
    exact h

theorem writeHeader_eq (a : Nat) (h : ChunkHeader) (s : State) :
    writeHeader a h s = putBytes .buf a ([h.type, h.flags] ++ beBytes16 h.length) s := by
  have h1 : memWrite .buf a 1 h.type s = putBytes .buf a [h.type] s := by rw [memWrite, beBytes_one]
  have h2 (t : State) : memWrite .buf (a + 1) 1 h.flags t = putBytes .buf (a + 1) [h.flags] t := by rw [memWrite, beBytes_one]
  rw [writeHeader, h1, h2, putBytes_append .buf a (a + 1) _ _ _ rfl]
  exact putBytes_append .buf a (a + 2) _ _ _ rfl

theorem writeU16BE_eq (sp : Space) (a : Nat) (v : Half) (s : State) : writeU16BE sp a v s = putBytes sp a (beBytes16 v) s := rfl

theorem writeU32BE_eq (sp : Space) (a : Nat) (v : Word) (s : State) : writeU32BE sp a v s = putBytes sp a (beBytes32 v) s := rfl

end Sys2Proof.Machine
end

