-- ==== Sys2Proof/Laws/Commands.lean ====
section
/-! SUPPORT. What each command and each host event can do, said once. -/

namespace Sys2Proof.Machine

theorem length_encodeImage (c : HeldChunk) : (encodeImage c).length = declaredLength c.userData.length := by
  simp only [encodeImage, List.length_append, List.length_cons, List.length_nil, length_beBytes16, length_beBytes32, declaredLength_eq]

@[simp] theorem length_userData (s : State) : (heldChunk s).userData.length = s.userLen.toNat := by simp [heldChunk]

/-- The BUF writes of ENCODE are one run of bytes, the image of the held chunk (41_encode R125). -/
theorem encodeWrites_eq (s : State) : encodeWrites s = putBytes .buf s.offset.toNat (encodeImage (heldChunk s)) s := by
  simp only [encodeWrites, encodeHeader, writeHeader_eq, writeU16BE_eq, writeU32BE_eq]
  rw [putBytes_append _ s.offset.toNat _ _ _ _ (by simp), putBytes_append _ s.offset.toNat _ _ _ _ (by simp),
    putBytes_append _ s.offset.toNat _ _ _ _ (by simp), putBytes_append _ s.offset.toNat _ _ _ _ (by simp),
    putBytes_append _ s.offset.toNat _ _ _ _ (by simp)]
  simp only [encodeImage, HeldChunk_flags_heldChunk, length_userData, List.append_assoc]
  rfl

/-- The check of ENCODE in numbers (41_encode R120). -/
theorem encodeFits_iff (s : State) :
    encodeFits s = true ↔ s.offset.toNat + 4 * ((16 + s.userLen.toNat + 3) / 4) ≤ s.bufLen.toNat :=
  decide_eq_true_iff

/-- ENCODE ends in one of two ways: OK with the image written, or BOUNDS with nothing written (41_encode R120). -/
theorem execEncode_cases (s : State) :
    (encodeFits s = true ∧
      execEncode s = .next (finishOk (wireLenOf s) (putBytes .buf s.offset.toNat (encodeImage (heldChunk s)) s))) ∨
    (encodeFits s = false ∧ execEncode s = .next (raise .bounds s)) := by
  cases h : encodeFits s
  · exact .inr ⟨rfl, by simp [execEncode, h]⟩
  · exact .inl ⟨rfl, by simp [execEncode, h, encodeWrites_eq]⟩

/-- DECODE ends in one of two ways: a check fails and nothing is written, or all pass (42_decode R140, R141). -/
theorem execDecode_cases (s : State) :
    (decodeCheck s = none ∧ execDecode s = .next (finishOk (wireLength (decodeDeclared s)) (decodeWrites s))) ∨
    (∃ x, decodeCheck s = some x ∧ execDecode s = .next (raise x s)) := by
  cases h : decodeCheck s
  · exact .inl ⟨rfl, by simp [execDecode, h]⟩
  · exact .inr ⟨_, rfl, by simp [execDecode, h]⟩

/-- What the checks of DECODE say when all pass (42_decode R141). -/
theorem decodeCheck_eq_none {s : State} :
    decodeCheck s = none ↔
      s.offset.toNat + 4 ≤ s.bufLen.toNat ∧ 16 ≤ decodeDeclared s ∧ s.offset.toNat + decodeDeclared s ≤ s.bufLen.toNat := by
  simp only [decodeCheck, Config.headerLength, Config.minDeclaredLength, gt_iff_lt]
  by_cases h1 : s.bufLen.toNat < s.offset.toNat + 4
  · rw [if_pos h1]
    simp
    omega
  · rw [if_neg h1]
    by_cases h2 : decodeDeclared s < 16
    · rw [if_pos h2]
      simp
      omega
    · rw [if_neg h2]
      by_cases h3 : s.bufLen.toNat < s.offset.toNat + decodeDeclared s
      · rw [if_pos h3]
        simp
        omega
      · rw [if_neg h3]
        simp
        omega

/-- NEW has one way to end (43_control R170). -/
theorem execNew_eq (s : State) : execNew s = .next (finishOk 0 (loadChunk s.params.defaultFlags 0#32 0#16 0#16 0#32 0#16 s)) := rfl

/-- DECODE's writes as a change of PRAM and the chunk registers. -/
theorem decodeWrites_def (s : State) :
    decodeWrites s = loadChunk (decomposeFlags (readHeader s.offset.toNat s).flags) (readU32BE .buf (s.offset.toNat + 4) s)
      (readU16BE .buf (s.offset.toNat + 8) s) (readU16BE .buf (s.offset.toNat + 10) s) (readU32BE .buf (s.offset.toNat + 12) s)
      (BitVec.ofNat 16 (payloadLength (decodeDeclared s)))
      (putBytes .pram 0 (bytesAt .buf (s.offset.toNat + 16) (payloadLength (decodeDeclared s)) s) s) := rfl

/-- A declared length is a 16-bit value. -/
theorem decodeDeclared_lt (s : State) : decodeDeclared s < 65536 := (readHeader s.offset.toNat s).length.isLt

/-- The word decoder finds a command in exactly the three words of the opcode map (30_encoding R81, R82). -/
theorem decode_ok_cases {w : Word} {i : Instr} (h : decode w = .ok i) :
    (cmdFields w).rsv = 0#24 ∧ (cmdFields w).op = opcode i := by
  unfold decode at h
  by_cases h0 : (cmdFields w).rsv = 0#24
  · refine ⟨h0, ?_⟩
    simp only [CmdFields.rsvClear, h0, decide_true, Bool.not_true, Bool.false_eq_true, if_false] at h
    by_cases h1 : (cmdFields w).op = 0x01#8
    · rw [if_pos h1] at h
      cases h
      exact h1
    · rw [if_neg h1] at h
      by_cases h2 : (cmdFields w).op = 0x02#8
      · rw [if_pos h2] at h
        cases h
        exact h2
      · rw [if_neg h2] at h
        by_cases h3 : (cmdFields w).op = 0x03#8
        · rw [if_pos h3] at h
          cases h
          exact h3
        · rw [if_neg h3] at h
          cases h
  · simp [CmdFields.rsvClear, h0] at h

/-- The address map read both ways (10_state R22). -/
theorem regAt_eq_some {a : Nat} {r : RegName} : regAt a = some r ↔ a = r.addr := by
  constructor
  · intro h
    have hb := List.find?_some (show RegName.all.find? (fun r => r.addr == a) = some r from h)
    exact (beq_iff_eq.1 hb).symm
  · rintro rfl
    cases r <;> rfl

/-- Every address that is misaligned, reserved or out of space names no register (43_control R179). -/
theorem regAt_eq_none {a : Nat} (h : a % 4 ≠ 0 ∨ 0x40 ≤ a ∨ a = 0x38 ∨ a = 0x3C) : regAt a = none := by
  cases hr : regAt a with
  | none => rfl
  | some r =>
    rw [regAt_eq_some] at hr
    subst hr
    cases r <;> exact absurd h (by decide)

/-- Every CMD write runs a command or is illegal (43_control R172). -/
theorem cmdWrite_cases (w : Word) (s : State) :
    (∃ i, decode w = .ok i ∧ cmdWrite w s = exec i s) ∨
    (∃ e, decode w = .error e ∧ cmdWrite w s = .next (raise .illegalCmd s)) := by
  cases h : decode w with
  | ok i => exact .inl ⟨i, rfl, by simp [cmdWrite, h]⟩
  | error e => exact .inr ⟨e, rfl, by simp [cmdWrite, h, execIllegal]⟩

/-- The ways a register write other than CMD can end: applied to one register, refused with one sticky bit, or write-1-to-clear of STATUS
(43_control R175, R176, R179). -/
inductive RegWriteEffect (a : Nat) (v : Word) (s : State) : State → Prop
  | acknowledged (ha : a = 0x04) : RegWriteEffect a v s (acknowledge v s)
  | refused (b : Sticky) : RegWriteEffect a v s (refuse b s)
  | offset (ha : a = 0x0C) : RegWriteEffect a v s { s with offset := v }
  | bufLen (ha : a = 0x10) (h : v.toNat ≤ s.params.bufSize) : RegWriteEffect a v s { s with bufLen := v }
  | flags (ha : a = 0x14) (h : v.extractLsb' 3 29 = 0#29) : RegWriteEffect a v s { s with flags := v.extractLsb' 0 3 }
  | tsn (ha : a = 0x18) : RegWriteEffect a v s { s with tsn := v }
  | sid (ha : a = 0x1C) (h : v.extractLsb' 16 16 = 0#16) : RegWriteEffect a v s { s with sid := v.extractLsb' 0 16 }
  | ssn (ha : a = 0x20) (h : v.extractLsb' 16 16 = 0#16) : RegWriteEffect a v s { s with ssn := v.extractLsb' 0 16 }
  | ppid (ha : a = 0x24) : RegWriteEffect a v s { s with ppid := v }
  | userLen (ha : a = 0x28) (h : v.toNat ≤ Config.pramSize) : RegWriteEffect a v s { s with userLen := v.extractLsb' 0 16 }

/-- Every register write is a CMD write or has one of those effects (43_control R175, R179). -/
theorem regWrite_cases (a : Nat) (v : Word) (s : State) :
    (a = 0x00 ∧ regWrite a v s = cmdWrite v s) ∨ (∃ t, RegWriteEffect a v s t ∧ regWrite a v s = .next t) := by
  have inRange : ∀ (l : Bool) (u : State), (l = true → RegWriteEffect a v s u) → RegWriteEffect a v s (applyInRange l u s) := by
    intro l u hu
    cases l
    · exact .refused .range
    · exact hu rfl
  cases h : regAt a with
  | none => exact .inr ⟨_, .refused .access, by simp [regWrite, h]⟩
  | some r =>
    have ha := regAt_eq_some.1 h
    cases r with
    | cmd => exact .inl ⟨ha, by simp [regWrite, h]⟩
    | status => exact .inr ⟨_, .acknowledged ha, by simp [regWrite, h]⟩
    | result => exact .inr ⟨_, .refused .access, by simp [regWrite, h]⟩
    | offset => exact .inr ⟨_, .offset ha, by simp [regWrite, h]⟩
    | bufLen => exact .inr ⟨_, inRange (v.toNat ≤ s.params.bufSize) { s with bufLen := v } fun hl => .bufLen ha (of_decide_eq_true hl),
        by simp [regWrite, h]⟩
    | flags => exact .inr ⟨_, inRange (v.extractLsb' 3 29 = 0#29) { s with flags := v.extractLsb' 0 3 } fun hl => .flags ha (of_decide_eq_true hl),
        by simp [regWrite, h]⟩
    | tsn => exact .inr ⟨_, .tsn ha, by simp [regWrite, h]⟩
    | sid => exact .inr ⟨_, inRange (v.extractLsb' 16 16 = 0#16) { s with sid := v.extractLsb' 0 16 } fun hl => .sid ha (of_decide_eq_true hl),
        by simp [regWrite, h]⟩
    | ssn => exact .inr ⟨_, inRange (v.extractLsb' 16 16 = 0#16) { s with ssn := v.extractLsb' 0 16 } fun hl => .ssn ha (of_decide_eq_true hl),
        by simp [regWrite, h]⟩
    | ppid => exact .inr ⟨_, .ppid ha, by simp [regWrite, h]⟩
    | userLen => exact .inr ⟨_, inRange (v.toNat ≤ Config.pramSize) { s with userLen := v.extractLsb' 0 16 } fun hl => .userLen ha (of_decide_eq_true hl),
        by simp [regWrite, h]⟩
    | declLen => exact .inr ⟨_, .refused .access, by simp [regWrite, h]⟩
    | wireLen => exact .inr ⟨_, .refused .access, by simp [regWrite, h]⟩
    | chunkType => exact .inr ⟨_, .refused .access, by simp [regWrite, h]⟩

/-- A register read answers one word and at most sets STK_ACCESS (43_control R174, R179). -/
theorem regRead_cases (a : Nat) (s : State) :
    (∃ r, regAt a = some r ∧ regRead a s = answer (.word (regValue r s)) s) ∨
    (regAt a = none ∧ regRead a s = answer (.word 0#32) (refuse .access s)) := by
  cases h : regAt a with
  | none => exact .inr ⟨rfl, by simp [regRead, h]⟩
  | some r => exact .inl ⟨r, rfl, by simp [regRead, h]⟩

/-- A byte read answers the byte, or 0 with STK_ACCESS beyond the memory (43_control R177, R178). -/
theorem byteRead_cases (sp : Space) (a : Nat) (s : State) :
    (a < s.memSize sp ∧ byteRead sp a s = answer (.byte (Memory.read (s.mem sp) a)) s) ∨
    (s.memSize sp ≤ a ∧ byteRead sp a s = answer (.byte 0x00#8) (refuse .access s)) := by
  by_cases h : a < s.memSize sp
  · exact .inl ⟨h, by simp [byteRead, h]⟩
  · exact .inr ⟨by omega, by simp [byteRead, h]⟩

/-- A byte write writes the byte, or sets STK_ACCESS beyond the memory (43_control R177, R178). -/
theorem byteWrite_cases (sp : Space) (a : Nat) (v : Byte) (s : State) :
    (a < s.memSize sp ∧ byteWrite sp a v s = s.setMem sp (Memory.write (s.mem sp) a v)) ∨
    (s.memSize sp ≤ a ∧ byteWrite sp a v s = refuse .access s) := by
  by_cases h : a < s.memSize sp
  · exact .inl ⟨h, by simp [byteWrite, h]⟩
  · exact .inr ⟨by omega, by simp [byteWrite, h]⟩

/-- A step performs the next event, or leaves the DCC as it is when there is none. -/
theorem step_cases (s : State) :
    (s.pending = [] ∧ step s = .next s) ∨
    (∃ e rest, s.pending = e :: rest ∧ step s = perform e { s with pending := rest }) := by
  cases h : s.pending with
  | nil => exact .inl ⟨rfl, by simp [step, h]⟩
  | cons e rest => exact .inr ⟨e, rest, rfl, by simp [step, h]⟩

end Sys2Proof.Machine
end

