-- ==== Sys2Proof/Laws/Location.lean ====
section
/-! SUPPORT. Which places each command and each host event leaves as they were, said once for each kind. -/

namespace Sys2Proof.Machine

section
variable (l : Location) (s : State)

@[simp] theorem Location.value_answer (v : BusValue) : l.value (answer v s) = l.value s := by
  cases l with
  | reg r => cases r <;> rfl
  | byte sp a => cases sp <;> rfl

theorem Location.value_refuse (b : Sticky) (h : l ≠ .reg .status) : l.value (refuse b s) = l.value s := by
  cases l with
  | reg r => cases r <;> first | rfl | exact absurd rfl h
  | byte sp a => cases sp <;> rfl

theorem Location.value_raise (x : CmdError) (hs : l ≠ .reg .status) (hr : l ≠ .reg .result) : l.value (raise x s) = l.value s := by
  cases l with
  | reg r => cases r <;> first | rfl | exact absurd rfl hs | exact absurd rfl hr
  | byte sp a => cases sp <;> rfl

theorem Location.value_finishOk (n : Nat) (hs : l ≠ .reg .status) (hr : l ≠ .reg .result) : l.value (finishOk n s) = l.value s := by
  cases l with
  | reg r => cases r <;> first | rfl | exact absurd rfl hs | exact absurd rfl hr
  | byte sp a => cases sp <;> rfl

end

/-- The upper bits of a word are 0 exactly when its value fits the lower ones. -/
theorem extractLsb'_eq_zero_iff (v : Word) (n m : Nat) (h : n + m = 32) : v.extractLsb' n m = 0#m ↔ v.toNat < 2 ^ n := by
  rw [← BitVec.toNat_inj, BitVec.extractLsb'_toNat, BitVec.toNat_ofNat, Nat.zero_mod, Nat.shiftRight_eq_div_pow]
  have hv := v.isLt
  have hp : 2 ^ 32 = 2 ^ n * 2 ^ m := by rw [← pow_add, h]
  rw [Nat.mod_eq_of_lt, Nat.div_eq_zero_iff]
  · exact or_iff_right (by positivity)
  · rw [Nat.div_lt_iff_lt_mul (by positivity), Nat.mul_comm, ← hp]
    exact hv

/-- A refused register write sets one sticky bit and nothing else (43_control R175, R179). -/
theorem regWrite_of_refused {s : State} {a : Nat} {v : Word} (h : regWriteRefused s a v = true) :
    ∃ b, regWrite a v s = .next (refuse b s) := by
  have h8 := extractLsb'_eq_zero_iff v 3 29 rfl
  have h16 := extractLsb'_eq_zero_iff v 16 16 rfl
  unfold regWriteRefused at h
  unfold regWrite
  cases hr : regAt a with
  | none => exact ⟨_, rfl⟩
  | some r =>
    rw [hr] at h
    cases r <;> simp only [Bool.false_eq_true, decide_eq_true_eq] at h <;>
      simp only [applyInRange, h8, h16, decide_eq_true_eq] <;>
      first | exact ⟨_, rfl⟩ | exact ⟨.range, by rw [if_neg (by omega)]⟩

/-- An applied register write other than CMD writes its register alone: every place with another source keeps its value (43_control R175). -/
theorem regWrite_of_applied {s : State} {a : Nat} {v : Word} (h : regWriteRefused s a v = false) (h0 : a ≠ 0) :
    ∃ t, regWrite a v s = .next t ∧ ∀ l : Location, (HostEvent.regWrite a v).target ≠ some l.source → l.value t = l.value s := by
  have h8 := extractLsb'_eq_zero_iff v 3 29 rfl
  have h16 := extractLsb'_eq_zero_iff v 16 16 rfl
  have other : ∀ (r : RegName) (t : State), (∀ q : RegName, q.source ≠ r → regValue q t = regValue q s) → t.buf = s.buf → t.pram = s.pram →
      ∀ l : Location, some (Location.reg r) ≠ some l.source → l.value t = l.value s := by
    intro r t hq hb hp l hl
    cases l with
    | reg q => exact congrArg BusValue.word (hq q fun e => hl (by rw [Location.source, e]))
    | byte sp a => cases sp <;> simp only [Location.value, State.mem, hb, hp]
  unfold regWriteRefused at h
  unfold regWrite
  simp only [HostEvent.target]
  cases hr : regAt a with
  | none => simp [hr] at h
  | some r =>
    rw [hr] at h
    cases r <;> simp only [Bool.true_eq_false, decide_eq_false_iff_not] at h <;>
      simp only [applyInRange, h8, h16, decide_eq_true_eq, Option.map_some]
    case cmd => exact absurd (regAt_eq_some.1 hr) h0
    all_goals
      try rw [if_pos (by omega)]
      refine ⟨_, rfl, other _ _ ?_ rfl rfl⟩
      intro q hq
      cases q <;> first | rfl | exact absurd rfl hq

/-- A command leaves every place that it does not write as it was (30_encoding R83, 60_exceptions R204). -/
theorem exec_value {i : Instr} {s : State} {l : Location} (hb : Memory.wf (s.mem .buf)) (hp : Memory.wf (s.mem .pram))
    (hw : commandWrites s i l = false) : ∃ t, exec i s = .next t ∧ l.value t = l.value s := by
  cases i with
  | encode =>
    obtain ⟨hf, h⟩ | ⟨hf, h⟩ := execEncode_cases s
    · refine ⟨_, h, ?_⟩
      cases l with
      | reg r => cases r <;> first | rfl | cases hw
      | byte sp c =>
        cases sp with
        | pram => rfl
        | buf =>
          simp only [commandWrites, hf, Bool.true_and, Bool.and_eq_false_iff, decide_eq_false_iff_not] at hw
          have hd : declLenOf s = declaredLength s.userLen.toNat := rfl
          show BusValue.byte (Memory.read ((putBytes .buf s.offset.toNat (encodeImage (heldChunk s)) s).mem .buf) c) = _
          rw [read_putBytes .buf _ _ _ _ hb, length_encodeImage, length_userData, if_neg (by omega)]
          rfl
    · refine ⟨_, h, ?_⟩
      cases l with
      | reg r => cases r <;> first | rfl | cases hw
      | byte sp c => cases sp <;> rfl
  | decode =>
    obtain ⟨hf, h⟩ | ⟨x, hf, h⟩ := execDecode_cases s
    · refine ⟨_, h, ?_⟩
      cases l with
      | reg r => cases r <;> first | rfl | cases hw | simp [commandWrites, hf, RegName.source, RegName.isChunk] at hw
      | byte sp c =>
        cases sp with
        | buf => rfl
        | pram =>
          simp only [commandWrites, hf, decide_true, Bool.true_and, decide_eq_false_iff_not] at hw
          show BusValue.byte (Memory.read ((putBytes .pram 0 _ s).mem .pram) c) = _
          rw [read_putBytes .pram _ _ _ _ hp, length_bytesAt, if_neg (by omega)]
          rfl
    · refine ⟨_, h, ?_⟩
      cases l with
      | reg r => cases r <;> first | rfl | cases hw
      | byte sp c => cases sp <;> rfl
  | new =>
    refine ⟨_, rfl, ?_⟩
    cases l with
    | reg r => cases r <;> first | rfl | cases hw
    | byte sp c => cases sp <;> rfl

/-- A CMD write leaves every place that it does not write as it was (43_control R171, R172). -/
theorem cmdWrite_value {w : Word} {s : State} {l : Location} (hb : Memory.wf (s.mem .buf)) (hp : Memory.wf (s.mem .pram))
    (hw : cmdWrites s w l = false) : ∃ t, cmdWrite w s = .next t ∧ l.value t = l.value s := by
  unfold cmdWrites at hw
  obtain ⟨i, hd, hc⟩ | ⟨x, hd, hc⟩ := cmdWrite_cases w s <;> rw [hd] at hw <;> rw [hc]
  · exact exec_value hb hp hw
  · simp only [Bool.or_eq_false_iff, decide_eq_false_iff_not] at hw
    exact ⟨_, rfl, l.value_raise s _ hw.2 hw.1⟩

/-- A register write other than CMD leaves every place that it does not write as it was (43_control R175, R179). -/
theorem regWrite_value {a : Nat} {w : Word} {s : State} {l : Location} (h0 : a ≠ 0) (hw : l.writtenBy s (.regWrite a w) = false) :
    ∃ t, regWrite a w s = .next t ∧ l.value t = l.value s := by
  obtain ⟨a, rfl⟩ := Nat.exists_eq_succ_of_ne_zero h0
  change (if regWriteRefused s _ w = true then _ else _) = false at hw
  cases hr : regWriteRefused s (a.succ) w with
  | true =>
    rw [if_pos hr] at hw
    obtain ⟨b, h⟩ := regWrite_of_refused hr
    exact ⟨_, h, l.value_refuse s b (of_decide_eq_false hw)⟩
  | false =>
    rw [if_neg (by simp [hr])] at hw
    obtain ⟨t, h, ht⟩ := regWrite_of_applied hr h0
    exact ⟨t, h, ht l (of_decide_eq_false hw)⟩

/-- A byte write leaves every place that it does not write as it was (43_control R177, R178). -/
theorem byteWrite_value {sp : Space} {a : Nat} {v : Byte} {s : State} {l : Location} (hm : Memory.wf (s.mem sp))
    (hw : (if decide (s.memSize sp ≤ a) = true then decide (l = .reg .status) else decide (some (Location.byte sp a) = some l.source)) = false) :
    l.value (byteWrite sp a v s) = l.value s := by
  obtain ⟨ha, h⟩ | ⟨ha, h⟩ := byteWrite_cases sp a v s <;> rw [h]
  · rw [if_neg (by simpa using ha)] at hw
    cases l with
    | reg r => cases sp <;> cases r <;> rfl
    | byte sp' c =>
      by_cases hs : sp' = sp
      · subst hs
        have hc : c ≠ a := by
          rintro rfl
          simp [Location.source] at hw
        simp only [Location.value, State.setMem_mem]
        rw [Memory.read_write _ _ _ hm, if_neg hc]
      · simp only [Location.value, State.setMem_mem_of_ne s _ hs]
  · rw [if_pos (by simpa using ha)] at hw
    exact l.value_refuse s _ (of_decide_eq_false hw)

/-- A byte read leaves every place that it does not write as it was (43_control R177, R178). -/
theorem byteRead_value {sp : Space} {a : Nat} {s : State} {l : Location}
    (hw : (if decide (s.memSize sp ≤ a) = true then decide (l = .reg .status) else decide (none = some l.source)) = false) :
    l.value (byteRead sp a s) = l.value s := by
  obtain ⟨ha, h⟩ | ⟨ha, h⟩ := byteRead_cases sp a s <;> rw [h, Location.value_answer]
  rw [if_pos (by simpa using ha)] at hw
  exact l.value_refuse s _ (of_decide_eq_false hw)

/-- Every host event leaves every place that it does not write as it was (20_memory R63). -/
theorem perform_value {e : HostEvent} {s : State} {l : Location} (hb : Memory.wf (s.mem .buf)) (hp : Memory.wf (s.mem .pram))
    (hw : l.writtenBy s e = false) : ∃ t, perform e s = .next t ∧ l.value t = l.value s := by
  cases e with
  | reset => cases hw
  | regRead a =>
    refine ⟨_, rfl, ?_⟩
    change (if decide (regAt a = none) = true then _ else _) = false at hw
    obtain ⟨r, hr, h⟩ | ⟨hr, h⟩ := regRead_cases a s <;> rw [h, Location.value_answer]
    rw [if_pos (by simpa using hr)] at hw
    exact l.value_refuse s _ (of_decide_eq_false hw)
  | bufRead a => exact ⟨_, rfl, byteRead_value hw⟩
  | pramRead a => exact ⟨_, rfl, byteRead_value hw⟩
  | bufWrite a v => exact ⟨_, rfl, byteWrite_value hb hw⟩
  | pramWrite a v => exact ⟨_, rfl, byteWrite_value hp hw⟩
  | regWrite a w =>
    by_cases h0 : a = 0
    · subst h0
      exact cmdWrite_value hb hp hw
    · exact regWrite_value h0 hw

end Sys2Proof.Machine
end

