-- ==== Sys2Proof/Laws/PerInstr.lean ====
section
/-! SUPPORT. The statement that is made per command: its CMD word is well formed and decodes to it (spec 30_encoding R80, R81). -/

namespace Sys2Proof.Laws.CommandWord

/-- A command is well formed, its CMD word has well-formed fields, and that word decodes to the command. -/
def Statement (i : Instr) : Prop :=
  i.wf = true ∧ (Sys2Proof.cmdFields (Sys2Proof.encode i)).wf = true ∧ Sys2Proof.decode (Sys2Proof.encode i) = .ok i

theorem encode : Statement .encode := ⟨rfl, rfl, rfl⟩

theorem decode : Statement .decode := ⟨rfl, rfl, rfl⟩

theorem new : Statement .new := ⟨rfl, rfl, rfl⟩

end Sys2Proof.Laws.CommandWord
end

