-- ==== Sys2Proof/Tests/Slice0.lean ====
section
/-! SUPPORT. Tests. Expected values are the vectors of spec/95_test_vectors.md (V-…, table F) and the worked values of 40_lengths R107; the
witnesses at the end meet the hypotheses of the statements, at the boundaries of their ranges. -/

namespace Sys2Proof.Machine.Tests

/-- n bytes of one value from address 0. -/
def filled (n : Nat) (v : Byte) : Memory := (List.range n).map fun a => (a, v)

/-- The start state of the vectors: BUF_SIZE = 64, BUF all AA; of PRAM the first eight bytes 55; DEFAULT_FLAGS 5. -/
def base : State := State.launched ⟨64, 5#3⟩ (filled 64 0xAA) (filled 8 0x55) 0 [] []

/-- base with bytes written to BUF. -/
def withBuf (a : Nat) (bs : List Byte) (s : State) : State := putBytes .buf a bs s

/-- The next state of an outcome. -/
def nextOf : Host.Outcome State Fault Refusal → State
  | .next s => s
  | .fault _ => base
  | .refused _ => base

/-- What a vector shows of the registers. -/
def shows (s : State) : Word × Word := (s.result, s.status)

/-- The chunk registers. -/
def chunkRegs (s : State) : BitVec 3 × Word × Half × Half × Word × Half := (s.flags, s.tsn, s.sid, s.ssn, s.ppid, s.userLen)

/-! ## Well-formedness: an ill-formed term for each check -/

theorem test_rsv_set_is_refused : (CmdFields.rsvClear ⟨1#24, 0x01#8⟩, CmdFields.wf ⟨1#24, 0x01#8⟩) = (false, false) := by decide
theorem test_op_zero_is_refused : (CmdFields.opAssigned ⟨0#24, 0x00#8⟩, CmdFields.wf ⟨0#24, 0x00#8⟩) = (false, false) := by decide
theorem test_op_four_is_refused : CmdFields.wf ⟨0#24, 0x04#8⟩ = false := by decide
theorem test_small_buf_is_refused : ¬ Params.wf ⟨15, 0#3⟩ := by decide
theorem test_large_buf_is_refused : ¬ Params.wf ⟨4294967296, 0#3⟩ := by decide
theorem test_unsorted_memory_is_refused : ¬ Memory.wf [(3, 1#8), (2, 1#8)] := by decide
theorem test_listed_default_is_refused : ¬ Memory.wf [(3, 0#8)] := by decide

/-! ## Decoding: the words written out from 30_encoding R80, R81 -/

theorem test_decode_encode : decode 0b00000000000000000000000000000001#32 = .ok .encode := by decide
theorem test_decode_decode : decode 0b00000000000000000000000000000010#32 = .ok .decode := by decide
theorem test_decode_new : decode 0b00000000000000000000000000000011#32 = .ok .new := by decide
theorem test_decode_illegal :
    (decode 0x00000000#32, decode 0x000000FF#32, decode 0x00000101#32) =
      (.error (.reservedOpcode 0x00#8), .error (.reservedOpcode 0xFF#8), .error (.reservedBits 1#24)) := by decide
theorem test_table_words :
    (decodeTableWord 32 1, decodeTableWord 32 2, decodeTableWord 32 3, decodeTableWord 32 4) =
      (some .encode, some .decode, some .new, none) := by decide
/-- The word set by withFetchWord is the next event, before those already pending. -/
theorem test_withFetchWord : (State.withFetchWord base 32 3).pending = [.regWrite 0x00 0x00000003#32] := by decide
/-- A command given to the reset state runs in the very next step. -/
theorem test_first_step_after_reset (w : Nat) (h : w = 1 ∨ w = 2 ∨ w = 3) : ∃ t, step (State.reset.withFetchWord 32 w) = .next t := by
  rcases h with rfl | rfl | rfl <;> exact ⟨_, rfl⟩

/-! ## Lengths and flags (V-L1 to V-L7, R107, table F) -/

theorem test_lengths :
    ([0, 1, 2, 3, 4, 5, 1200, 65516, 65517, 65519].map fun n => (declaredLength n, wireLength (declaredLength n), padLength (declaredLength n))) =
      [(16, 16, 0), (17, 20, 3), (18, 20, 2), (19, 20, 1), (20, 20, 0), (21, 24, 3), (1216, 1216, 0), (65532, 65532, 0), (65533, 65536, 3),
       (65535, 65536, 1)] := by decide
theorem test_payload_length : (payloadLength 16, payloadLength 65535) = (0, 65519) := by decide
theorem test_compose_table_F : ((List.range 8).map fun f => (composeFlags (BitVec.ofNat 3 f)).toNat) = [0, 1, 2, 3, 4, 5, 6, 7] := by decide
theorem test_decompose : ([0xFF#8, 0xF8#8, 0x05#8, 0x80#8].map decomposeFlags) = [7#3, 0#3, 5#3, 0#3] := by decide
theorem test_recompose : composeFlags (decomposeFlags 0xFD#8) = 0x05#8 := by decide

/-! ## ENCODE -/

/-- V-E1's set-up. -/
def sE1 : State :=
  { base with flags := 3, tsn := 0x01020304#32, sid := 5, ssn := 7, ppid := 0x33#32, userLen := 3,
              pram := [(0, 0x61#8), (1, 0x62#8), (2, 0x63#8)] }

/-- V-E4's set-up: an exact fit, 44 + 20 = 64. -/
def sE4 : State := { base with flags := 3, tsn := 1, userLen := 1, pram := [(0, 0xEE#8)], offset := 44 }

/-- V-E5's set-up: the bytes would fit, the padding would not. -/
def sE5 : State := { base with userLen := 1, offset := 46 }

theorem test_encode_E1 :
    bytesAt .buf 0 24 (nextOf (exec .encode sE1)) =
      [0x00, 0x03, 0x00, 0x13, 0x01, 0x02, 0x03, 0x04, 0x00, 0x05, 0x00, 0x07, 0x00, 0x00, 0x00, 0x33, 0x61, 0x62, 0x63, 0xAA, 0xAA, 0xAA,
       0xAA, 0xAA] ∧ shows (nextOf (exec .encode sE1)) = (20#32, 0#32) := by decide
theorem test_encode_E4 :
    bytesAt .buf 40 24 (nextOf (exec .encode sE4)) =
      [0xAA, 0xAA, 0xAA, 0xAA, 0x00, 0x03, 0x00, 0x11, 0x00, 0x00, 0x00, 0x01, 0x00, 0x00, 0x00, 0x00, 0x00, 0x00, 0x00, 0x00, 0xEE, 0xAA,
       0xAA, 0xAA] := by decide
theorem test_encode_E5 : nextOf (exec .encode sE5) = { sE5 with status := 0x00000202#32 } := by decide
/-- V-E6: OFFSET + 16 = 2^32 does not wrap. -/
theorem test_encode_E6 : (nextOf (exec .encode { base with offset := 0xFFFFFFF0#32 })).status = 0x00000202#32 := by decide

/-! ## DECODE -/

/-- V-D1's set-up. -/
def sD1 : State :=
  withBuf 0 [0x00, 0x03, 0x00, 0x13, 0x01, 0x02, 0x03, 0x04, 0x00, 0x05, 0x00, 0x07, 0x00, 0x00, 0x00, 0x33, 0x61, 0x62, 0x63, 0x00]
    { base with bufLen := 20 }

/-- V-D2's set-up: an empty payload that ends at BUF_LEN. -/
def sD2 : State :=
  withBuf 8 [0x00, 0x02, 0x00, 0x10, 0x80, 0x00, 0x00, 0x00, 0x00, 0x00, 0xFF, 0xFF, 0x00, 0x00, 0x00, 0x00]
    { base with offset := 8, bufLen := 24 }

/-- V-D6's set-up: type 1, reserved flag bits set, padding absent. -/
def sD6 : State :=
  withBuf 0 [0x01, 0xFF, 0x00, 0x11, 0xCA, 0xFE, 0xBA, 0xBE, 0x01, 0x02, 0x03, 0x04, 0x05, 0x06, 0x07, 0x08, 0x99] { base with bufLen := 17 }

/-- A header with a declared length, and BUF_LEN (V-D3 to V-D5, V-D8). -/
def sHeader (len bufLen : Nat) : State := withBuf 0 [0x00, 0x03, 0x00, BitVec.ofNat 8 len] { base with bufLen := BitVec.ofNat 32 bufLen }

theorem test_decode_D1 :
    chunkRegs (nextOf (exec .decode sD1)) = (3#3, 0x01020304#32, 5#16, 7#16, 0x33#32, 3#16) ∧
      bytesAt .pram 0 4 (nextOf (exec .decode sD1)) = [0x61, 0x62, 0x63, 0x55] ∧ shows (nextOf (exec .decode sD1)) = (20#32, 0#32) := by
  decide
theorem test_decode_D6 :
    chunkRegs (nextOf (exec .decode sD6)) = (7#3, 0xCAFEBABE#32, 0x0102#16, 0x0304#16, 0x05060708#32, 1#16) ∧
      (byteAt .pram 0 (nextOf (exec .decode sD6)), shows (nextOf (exec .decode sD6))) = (0x99#8, 20#32, 0#32) := by decide
theorem test_decode_D3_D4_D5 :
    ([sHeader 10 64, sHeader 10 3, sHeader 19 18, sHeader 15 64, sHeader 0 64].map fun s => (nextOf (exec .decode s)).status) =
      [0x00000101#32, 0x00000202#32, 0x00000202#32, 0x00000101#32, 0x00000101#32] := by decide
theorem test_decode_D3_keeps_the_chunk : nextOf (exec .decode (sHeader 10 64)) = { sHeader 10 64 with status := 0x00000101#32 } := by decide

/-! ## NEW and illegal words -/

theorem test_new_N1 :
    nextOf (exec .new { base with flags := 7, tsn := 9, userLen := 3, result := 20 }) = base := by decide
theorem test_illegal_X1 : nextOf (perform (.regWrite 0x00 0x000000FF#32) base) = { base with status := 0x00000403#32 } := by decide
theorem test_illegal_X3_X4 :
    (nextOf (perform (.regWrite 0x00 0x00000101#32) base)).status = 0x00000403#32 ∧
      (nextOf (perform (.regWrite 0x00 0x00000004#32) { base with status := 0x00000202#32 })).status = 0x00000603#32 := by decide

/-! ## Host access (V-L8, V-H1 to V-H12) -/

theorem test_lengths_read :
    (nextOf (perform (.regRead 0x30) (nextOf (perform (.regRead 0x2C) (nextOf (perform (.regWrite 0x28 65519#32) base)))))).returned =
      [.word 65535#32, .word 65536#32] := by decide
theorem test_sid_refused_H1 :
    nextOf (perform (.regWrite 0x1C 0x00010000#32) { base with sid := 5 }) = { base with sid := 5, status := 0x00000800#32 } := by decide
theorem test_user_len_refused_H2 : nextOf (perform (.regWrite 0x28 65520#32) base) = { base with status := 0x00000800#32 } := by decide
theorem test_result_read_only_H3 : nextOf (perform (.regWrite 0x08 5#32) base) = { base with status := 0x00001000#32 } := by decide
theorem test_unmapped_reads_H4 :
    nextOf (perform (.regRead 0x06) (nextOf (perform (.regRead 0x38) base))) =
      { base with status := 0x00001000#32, returned := [.word 0, .word 0] } := by decide
theorem test_status_write_H5_H11 :
    (nextOf (perform (.regWrite 0x04 0x00000200#32) { base with status := 0x00001B02#32 })).status = 0x00001902#32 ∧
      (nextOf (perform (.regWrite 0x04 0x0000000F#32) { base with status := 0x00000F03#32 })).status = 0x00000F03#32 := by decide
theorem test_buf_len_H6 :
    shows (nextOf (perform (.regWrite 0x10 65#32) base)) = (0#32, 0x00000800#32) ∧
      nextOf (perform (.regWrite 0x10 64#32) { base with bufLen := 1 }) = base := by decide
theorem test_flags_refused_H7 :
    nextOf (perform (.regWrite 0x14 8#32) { base with flags := 3 }) = { base with flags := 3, status := 0x00000800#32 } := by decide
theorem test_buf_access_H8 :
    nextOf (perform (.bufRead 64) (nextOf (perform (.bufWrite 64 0x12#8) base))) =
      { base with status := 0x00001000#32, returned := [.byte 0x00#8] } := by decide
theorem test_pram_access_H9 :
    nextOf (perform (.pramRead 65518) (nextOf (perform (.pramWrite 65519 0x01#8) base))) =
      { base with status := 0x00001000#32, returned := [.byte 0x00#8] } := by decide
theorem test_cmd_read_H10 : nextOf (perform (.regRead 0x00) base) = { base with returned := [.word 0x00000000#32] } := by decide
/-- P1 line 7, wpayload 61 62 63, and clear_sticky (30_encoding R85). -/
theorem test_script_lines :
    scriptEvents [.wpayload [0x61#8, 0x62#8, 0x63#8], .clearSticky, .setFlags false true true] =
      [.pramWrite 0 0x61#8, .pramWrite 1 0x62#8, .pramWrite 2 0x63#8, .regWrite 0x28 3#32, .regWrite 0x04 0x00001F00#32,
       .regWrite 0x14 3#32] := by decide
/-- A write of the byte that an unlisted address reads as takes the entry out: the canonical form. -/
theorem test_write_keeps_canonical_form :
    (Memory.write [(1, 7#8), (3, 9#8)] 3 0#8, Memory.write [(1, 7#8), (3, 9#8)] 2 8#8) =
      ([(1, 7#8)], [(1, 7#8), (2, 8#8), (3, 9#8)]) := by decide

/-! ## Witnesses: states and operands that meet the hypotheses of the statements -/

theorem witness_EncodedCommandDecodesBack : Instr.encode.wf = true := by decide
theorem witness_OnlyEncodedWordsDecode :
    (0x00000101#32).extractLsb' 8 24 ≠ 0#24 ∧ (0xFFFFFFFF#32).extractLsb' 8 24 ≠ 0#24 ∧
      (0x00000000#32).extractLsb' 8 24 = 0#24 ∧ (0x00000000#32).extractLsb' 0 8 = 0x00#8 ∧
      (0x00000004#32).extractLsb' 8 24 = 0#24 ∧ 0x04#8 ≤ (0x00000004#32).extractLsb' 0 8 ∧
      (0x000000FF#32).extractLsb' 8 24 = 0#24 ∧ 0x04#8 ≤ (0x000000FF#32).extractLsb' 0 8 := by decide
theorem witness_StepRunsTheCommandWritten :
    ({ base with pending := [.regWrite 0x00 0x00000001#32] } : State).pending = .regWrite 0x00 0x00000001#32 :: [] ∧
      decode 0x00000001#32 = .ok .encode ∧ decode 0x00000004#32 = .error (.reservedOpcode 0x04#8) := by decide
theorem witness_IllegalWordOnlyReports :
    (0x00000000#32 ≠ 0x00000001#32 ∧ 0x00000000#32 ≠ 0x00000002#32 ∧ 0x00000000#32 ≠ 0x00000003#32) ∧
      (0x00000004#32 ≠ 0x00000001#32 ∧ 0x00000004#32 ≠ 0x00000002#32 ∧ 0x00000004#32 ≠ 0x00000003#32) ∧
      (0x00000101#32 ≠ 0x00000001#32 ∧ 0x00000101#32 ≠ 0x00000002#32 ∧ 0x00000101#32 ≠ 0x00000003#32) := by decide
theorem witness_EveryStepCompletesOneEvent :
    base.pending = [] ∧ ({ base with pending := [.reset] } : State).pending = .reset :: [] := by decide
/-- For every statement with ENCODE's hypotheses: an exact fit (44 + 20 = 64 and, with no payload, 48 + 16 = 64), and padding present. -/
theorem witness_encode :
    ∀ s ∈ [sE4, { base with offset := 48 }, sE1],
      s.Inv ∧ Memory.wf s.buf ∧ s.offset.toNat + 4 * ((16 + s.userLen.toNat + 3) / 4) ≤ s.bufLen.toNat := by decide
theorem witness_EncodeReadsFlagsWhenItRuns : (7#32).toNat ≤ 7 ∧ sE4.Inv := by decide
/-- The clause of EncodeChangesOnlyItsWindow for an ENCODE that ends BOUNDS. -/
theorem witness_encode_ends_bounds : Memory.wf sE5.buf ∧ (nextOf (exec .encode sE5)).status.extractLsb' 0 4 ≠ 0#4 := by decide
theorem witness_EncodeReportsBounds :
    ∀ s ∈ [{ base with userLen := 1, offset := 45 }, sE5],
      s.bufLen.toNat < s.offset.toNat + 4 * ((16 + s.userLen.toNat + 3) / 4) := by decide
theorem witness_OffsetNeverWraps :
    ∀ s ∈ [{ base with offset := 0xFFFFFFF0#32 }, { base with offset := 0xFFFFFFFF#32 }], 2 ^ 32 - 16 ≤ s.offset.toNat := by decide
theorem witness_PassedChecksPutTheWindowsInsideTheMemories :
    sE4.Inv ∧ encodeFits sE4 = true ∧ sD1.Inv ∧ decodeCheck sD1 = none := by decide
/-- DECODE's hypotheses at the smallest declared length and at a body that ends at BUF_LEN. -/
theorem witness_DecodeLoadsTheChunk :
    ∀ c ∈ [(sD2, 16), (sD6, 17), (sD1, 19)],
      c.1.Inv ∧ c.1.offset.toNat + 4 ≤ c.1.bufLen.toNat ∧
      c.2 = 256 * (byteAt .buf (c.1.offset.toNat + 2) c.1).toNat + (byteAt .buf (c.1.offset.toNat + 3) c.1).toNat ∧
      16 ≤ c.2 ∧ c.1.offset.toNat + c.2 ≤ c.1.bufLen.toNat := by decide
theorem witness_DecodeChangesOnlyTheChunk : Memory.wf sD1.pram ∧ Memory.wf (sHeader 10 64).pram := by decide
/-- One state for each clause of DecodeChecksInOrder, each at its boundary. -/
theorem witness_DecodeChecksInOrder :
    (∀ c ∈ [(sHeader 10 3, 10), (sHeader 15 4, 15), (sHeader 0 64, 0), (sHeader 16 15, 16), (sHeader 16 16, 16)],
      c.2 = 256 * (byteAt .buf (c.1.offset.toNat + 2) c.1).toNat + (byteAt .buf (c.1.offset.toNat + 3) c.1).toNat) ∧
    (sHeader 10 3).bufLen.toNat < (sHeader 10 3).offset.toNat + 4 ∧
    (sHeader 15 4).offset.toNat + 4 ≤ (sHeader 15 4).bufLen.toNat ∧
    ((sHeader 16 15).offset.toNat + 4 ≤ (sHeader 16 15).bufLen.toNat ∧ (sHeader 16 15).bufLen.toNat < (sHeader 16 15).offset.toNat + 16) ∧
    (sHeader 16 16).offset.toNat + 16 ≤ (sHeader 16 16).bufLen.toNat := by decide
/-- BUF of V-D1 with the type byte, a reserved flag bit, the padding and a byte beyond changed. -/
def otherBuf : Memory := (putBytes .buf 19 [0x77, 0x78] (putBytes .buf 0 [0x01, 0xFB] sD1)).buf
theorem witness_DecodeDependsOnItsChunkAlone :
    otherBuf ≠ sD1.buf ∧
    decomposeFlags (byteAt .buf (sD1.offset.toNat + 1) { sD1 with buf := otherBuf }) = decomposeFlags (byteAt .buf (sD1.offset.toNat + 1) sD1) ∧
    (∀ k < 19, 2 ≤ k → byteAt .buf (sD1.offset.toNat + k) { sD1 with buf := otherBuf } = byteAt .buf (sD1.offset.toNat + k) sD1) ∧
    decodeDeclared sD1 = 19 := by decide
theorem witness_DecodeKeepsOnlyThreeFlagBits :
    sD1.Inv ∧ decodeCheck sD1 = none ∧ (0xFB#8).extractLsb' 0 3 = (byteAt .buf (sD1.offset.toNat + 1) sD1).extractLsb' 0 3 := by decide
theorem witness_EmptyPayloadDecodes :
    sD2.offset.toNat + 16 ≤ sD2.bufLen.toNat ∧ byteAt .buf (sD2.offset.toNat + 2) sD2 = 0x00#8 ∧
      byteAt .buf (sD2.offset.toNat + 3) sD2 = 0x10#8 := by decide
/-- V-D6's chunk with just the room that its padded length needs. -/
theorem witness_ReencodeKeepsTheChunkImage :
    ({ sD6 with bufLen := 20 } : State).Inv ∧ decodeCheck { sD6 with bufLen := 20 } = none ∧
      sD6.offset.toNat + 4 * ((decodeDeclared { sD6 with bufLen := 20 } + 3) / 4) ≤ 20 := by decide
theorem witness_NewLoadsTheDefaults :
    ({ base with offset := 48 } : State).Inv ∧ ({ base with offset := 48 } : State).offset.toNat + 16 ≤ base.bufLen.toNat := by decide
theorem witness_RaiseDoesExactlyThis :
    (CmdError.illegalCmd, 3#4, 10) ∈ [(CmdError.formatTooShort, 1#4, 8), (CmdError.bounds, 2#4, 9), (CmdError.illegalCmd, 3#4, 10)] := by
  decide
/-- A command that ends BOUNDS and an illegal word. -/
theorem witness_FailedCommandWritesOnlyStatusAndResult :
    (nextOf (perform (.regWrite 0x00 0x00000001#32) sE5)).status.extractLsb' 0 4 ≠ 0#4 ∧
      (nextOf (perform (.regWrite 0x00 0x00000000#32) base)).status.extractLsb' 0 4 ≠ 0#4 := by decide
theorem witness_ResultZeroExactlyOnFailure : Instr.decode = .encode ∨ Instr.decode = .decode := by decide
/-- Each clause of RegWriteFollowsTheTable at the two sides of its boundary. -/
theorem witness_RegWriteFollowsTheTable :
    (64#32).toNat ≤ base.params.bufSize ∧ base.params.bufSize < (65#32).toNat ∧ (7#32).toNat ≤ 7 ∧ 7 < (8#32).toNat ∧
      (0xFFFF#32).toNat ≤ 0xFFFF ∧ 0xFFFF < (0x10000#32).toNat ∧ (65519#32).toNat ≤ 65519 ∧ 65519 < (65520#32).toNat := by decide
theorem witness_UnmappedRegAccessIsRefused :
    ∀ a ∈ [0x01, 0x37, 0x40, 0x38, 0x3C], a % 4 ≠ 0 ∨ 0x40 ≤ a ∨ a = 0x38 ∨ a = 0x3C := by decide
theorem witness_BufAccessUsesBufSize : Memory.wf base.buf ∧ 63 < base.params.bufSize ∧ base.params.bufSize ≤ 64 := by decide
theorem witness_PramAccessUsesPramSize : Memory.wf base.pram ∧ 65518 ≤ 65518 ∧ 65519 ≤ 65519 := by decide
theorem witness_ReadReturnsTheLastWrite :
    let s : State := { base with pending := [.bufWrite 63 0x12#8, .bufRead 63] }
    Memory.wf s.buf ∧ 63 < s.params.bufSize ∧ s.pending = .bufWrite 63 0x12#8 :: .bufRead 63 :: [] := by decide
/-- The clauses for states that meet the invariant, each at a boundary: the top bytes, the limits of the ranges, and both checks passed. -/
theorem witness_ReadReturnsTheLastWrite_written :
    (sE4.Inv ∧ encodeFits sE4 = true) ∧ (∀ s ∈ [sD1, sD2], s.Inv ∧ decodeCheck s = none) ∧
      (63 < base.params.bufSize ∧ 65518 < 65519) ∧ (64#32).toNat ≤ base.params.bufSize ∧ (7#32).toNat ≤ 7 ∧ (0xFFFF#32).toNat ≤ 0xFFFF ∧
      (65519#32).toNat ≤ 65519 := by decide
/-- The last byte of BUF stands through a CMD write that ends BOUNDS, an access that is refused, a read and writes elsewhere, USER_LEN through a
refused write to it, and a PRAM byte through an ENCODE. -/
theorem witness_ReadReturnsTheLastWrite_unwritten :
    let l : Location := .byte .buf 63
    (l.mapped sE5 = true ∧ sE5.Inv ∧
      l.unwritten [.regWrite 0x00 0x00000001#32, .regWrite 0x38 1#32, .bufRead 63, .bufWrite 62 1#8, .pramWrite 63 1#8] sE5 = true) ∧
    Location.unwritten (.reg .wireLen) [.regWrite 0x28 65520#32, .regWrite 0x0C 4#32] base = true ∧
    Location.unwritten (.byte .pram 0) [.regWrite 0x00 0x00000001#32] sE1 = true := by decide
/-- What does write a place: ENCODE its window's ends and neither neighbour, DECODE a chunk register and its payload alone, an illegal word
RESULT, a refused access STATUS. -/
theorem test_writtenBy :
    ([43, 44, 60, 61].map fun a => Location.writtenBy sE4 (.byte .buf a) (.regWrite 0x00 0x00000001#32)) = [false, true, true, false] ∧
      ([2, 3].map fun a => Location.writtenBy sD1 (.byte .pram a) (.regWrite 0x00 0x00000002#32)) = [true, false] ∧
      Location.writtenBy sD1 (.reg .wireLen) (.regWrite 0x00 0x00000002#32) = true ∧
      Location.writtenBy base (.reg .result) (.regWrite 0x00 0x00000000#32) = true ∧
      Location.writtenBy base (.reg .status) (.bufRead 64) = true ∧ Location.writtenBy base (.reg .status) (.bufRead 63) = false := by decide
theorem witness_OnlyCommandsWriteLastAndResult :
    (∀ w, HostEvent.regWrite 0x04 0#32 ≠ .regWrite 0x00 w) ∧ HostEvent.regWrite 0x04 0#32 ≠ .reset :=
  ⟨fun w h => by injection h with ha; exact absurd ha (by decide), by decide⟩
/-- STK_FORMAT and STK_ACCESS, the ends of the range, with a STATUS write that has 0 in them. -/
theorem witness_StickyBitsStaySet :
    let s : State := { base with status := 0x00001100#32 }
    s.status.getLsbD 8 = true ∧ s.status.getLsbD 12 = true ∧ HostEvent.regWrite 0x04 0x00000E00#32 ≠ .reset ∧
      (0x00000E00#32).getLsbD 8 = false ∧ (0x00000E00#32).getLsbD 12 = false := by decide
theorem witness_LengthsFollowUserLen : (65519#32).toNat ≤ 65519 := by decide
/-- Fields at the top of both memories, a 16-bit one in the last two bytes. -/
theorem witness_FieldsAreBigEndian :
    Memory.wf (base.mem .buf) ∧ 60 + 4 ≤ base.memSize .buf ∧ 62 + 2 ≤ base.memSize .buf ∧ Memory.wf (base.mem .pram) ∧
      65515 + 4 ≤ base.memSize .pram ∧ 65517 + 2 ≤ base.memSize .pram := by decide
/-- wbytes that ends at the last byte of BUF, and wpayload. -/
theorem witness_PseudoInstructionsExpand :
    Memory.wf base.buf ∧ 62 + [0x61#8, 0x62#8].length ≤ base.params.bufSize ∧ Memory.wf base.pram ∧ [0x61#8, 0x62#8].length ≤ 65519 := by decide
/-- V-E1's state with other BUF bytes and other PRAM bytes from USER_LEN = 3 upward. -/
theorem witness_EncodeDependsOnItsChunkAlone :
    let m : Memory := filled 64 0xBB
    let p : Memory := [(0, 0x61#8), (1, 0x62#8), (2, 0x63#8), (3, 0x64#8)]
    Memory.wf sE1.buf ∧ Memory.wf m ∧ p ≠ sE1.pram ∧
      ∀ k < sE1.userLen.toNat, byteAt .pram k { sE1 with buf := m, pram := p } = byteAt .pram k sE1 := by decide
theorem witness_ResetSetsEveryRegister : Params.wf ⟨16, 0#3⟩ ∧ Params.wf ⟨4294967295, 7#3⟩ ∧ base.params.wf := by decide
theorem witness_EveryStepKeepsTheInvariant :
    ({ base with pending := [.regWrite 0x00 0x00000001#32] } : State).Inv ∧
      step { base with pending := [.regWrite 0x00 0x00000001#32] } = .next (nextOf (exec .encode base)) :=
  ⟨by decide, rfl⟩

end Sys2Proof.Machine.Tests
end

section
/-! The scope of a step (spec 00_scope R7, R14): every host event completes, and none touches the parameters or the events that wait. -/

namespace Sys2Proof.Machine

/-- The outcome is a next state that has the parameters and the waiting events of `s`. -/
def CompletesKeepingSetup (s : State) (o : Host.Outcome State Fault Refusal) : Prop :=
  ∃ t, o = .next t ∧ t.params = s.params ∧ t.pending = s.pending

/-! The parameters and the waiting events after the operations that have no such lemma yet. -/

@[simp] theorem putBytes_params (sp : Space) (a : Nat) (bs : List Byte) (s : State) : (putBytes sp a bs s).params = s.params := by
  rw [putBytes_def, State.setMem_params]

@[simp] theorem putBytes_pending (sp : Space) (a : Nat) (bs : List Byte) (s : State) : (putBytes sp a bs s).pending = s.pending := by
  rw [putBytes_def, State.setMem_pending]

@[simp] theorem decodeWrites_params (s : State) : (decodeWrites s).params = s.params := by
  rw [decodeWrites_def, loadChunk_params, putBytes_params]

@[simp] theorem decodeWrites_pending (s : State) : (decodeWrites s).pending = s.pending := by
  rw [decodeWrites_def, loadChunk_pending, putBytes_pending]

@[simp] theorem resetEvent_params (s : State) : (resetEvent s).params = s.params := State.launched_params ..

@[simp] theorem resetEvent_pending (s : State) : (resetEvent s).pending = s.pending := State.launched_pending ..

/-! Commands (43_control R170 to R172). -/

theorem exec_completesKeepingSetup (i : Instr) (s : State) : CompletesKeepingSetup s (exec i s) := by
  cases i with
  | encode =>
    obtain ⟨-, h⟩ | ⟨-, h⟩ := execEncode_cases s
    · exact ⟨_, h, by simp, by simp⟩
    · exact ⟨_, h, raise_params .., raise_pending ..⟩
  | decode =>
    obtain ⟨-, h⟩ | ⟨x, -, h⟩ := execDecode_cases s
    · exact ⟨_, h, by simp, by simp⟩
    · exact ⟨_, h, raise_params .., raise_pending ..⟩
  | new => exact ⟨_, execNew_eq s, by simp, by simp⟩

theorem cmdWrite_completesKeepingSetup (w : Word) (s : State) : CompletesKeepingSetup s (cmdWrite w s) := by
  obtain ⟨i, -, h⟩ | ⟨e, -, h⟩ := cmdWrite_cases w s
  · rw [h]
    exact exec_completesKeepingSetup i s
  · exact ⟨_, h, raise_params .., raise_pending ..⟩

/-! The other host events (43_control R174 to R179). -/

theorem RegWriteEffect.params_eq {a : Nat} {v : Word} {s t : State} (h : RegWriteEffect a v s t) : t.params = s.params := by
  cases h <;> rfl

theorem RegWriteEffect.pending_eq {a : Nat} {v : Word} {s t : State} (h : RegWriteEffect a v s t) : t.pending = s.pending := by
  cases h <;> rfl

theorem regWrite_completesKeepingSetup (a : Nat) (v : Word) (s : State) : CompletesKeepingSetup s (regWrite a v s) := by
  obtain ⟨-, h⟩ | ⟨t, ht, h⟩ := regWrite_cases a v s
  · rw [h]
    exact cmdWrite_completesKeepingSetup v s
  · exact ⟨t, h, ht.params_eq, ht.pending_eq⟩

theorem regRead_keepsSetup (a : Nat) (s : State) : CompletesKeepingSetup s (.next (regRead a s)) := by
  obtain ⟨r, -, h⟩ | ⟨-, h⟩ := regRead_cases a s <;> exact ⟨_, rfl, by simp [h], by simp [h]⟩

theorem byteRead_keepsSetup (sp : Space) (a : Nat) (s : State) : CompletesKeepingSetup s (.next (byteRead sp a s)) := by
  obtain ⟨-, h⟩ | ⟨-, h⟩ := byteRead_cases sp a s <;> exact ⟨_, rfl, by simp [h], by simp [h]⟩

theorem byteWrite_keepsSetup (sp : Space) (a : Nat) (v : Byte) (s : State) :
    CompletesKeepingSetup s (.next (byteWrite sp a v s)) := by
  obtain ⟨-, h⟩ | ⟨-, h⟩ := byteWrite_cases sp a v s <;> exact ⟨_, rfl, by simp [h], by simp [h]⟩

/-- Every host event completes (20_memory R63), and leaves the parameters and the events behind it. -/
theorem perform_completesKeepingSetup (e : HostEvent) (s : State) : CompletesKeepingSetup s (perform e s) := by
  cases e with
  | regRead a => exact regRead_keepsSetup a s
  | regWrite a v => exact regWrite_completesKeepingSetup a v s
  | bufRead a => exact byteRead_keepsSetup .buf a s
  | bufWrite a v => exact byteWrite_keepsSetup .buf a v s
  | pramRead a => exact byteRead_keepsSetup .pram a s
  | pramWrite a v => exact byteWrite_keepsSetup .pram a v s
  | reset => exact ⟨_, rfl, resetEvent_params s, resetEvent_pending s⟩

/-! One step. -/

theorem step_of_pending_nil {s : State} (h : s.pending = []) : step s = .next s := by
  simp [step, h]

theorem step_of_pending_cons {s : State} {e : HostEvent} {rest : List HostEvent} (h : s.pending = e :: rest) :
    step s = perform e { s with pending := rest } := by
  simp [step, h]

/-- Settles O6: a step with an event is that event performed, and every event completes and leaves the ones behind it. -/
theorem everyStepCompletesOneEvent : Obligations.EveryStepCompletesOneEvent := by
  refine ⟨fun s h => step_of_pending_nil h, fun s e rest h => ?_⟩
  obtain ⟨t, ht, -, hpending⟩ := perform_completesKeepingSetup e { s with pending := rest }
  exact ⟨t, (step_of_pending_cons h).trans ht, hpending⟩

/-- Settles O46: an idle step is the same state, and no event changes the parameters. -/
theorem parametersNeverChange : Obligations.ParametersNeverChange := by
  intro s t h
  obtain ⟨-, hidle⟩ | ⟨e, rest, -, hstep⟩ := step_cases s
  · cases hidle.symm.trans h
    rfl
  · obtain ⟨u, hu, hparams, -⟩ := perform_completesKeepingSetup e { s with pending := rest }
    cases (hstep.trans hu).symm.trans h
    exact hparams

end Sys2Proof.Machine
end

section
/-! The state's invariant (spec 10_state R22 to R41, 60_exceptions R203): what any host event can leave, said once, and what each of
those ends keeps: the invariant, and a sticky bit that is set (R23, R207). -/

namespace Sys2Proof.Machine

/-- The ways a host event can end (43_control R170 to R179, 41_encode R120, 42_decode R140, 70_reset R230). A command that ends OK and a write
carry the check that they passed; which event made a read, a byte write or a refusal does not matter here, so those ends leave it open. -/
inductive EventEffect (s : State) : HostEvent → State → Prop
  | encoded {w : Word} (hw : decode w = .ok .encode) (hfits : encodeFits s = true) :
      EventEffect s (.regWrite 0x00 w) (finishOk (wireLenOf s) (putBytes .buf s.offset.toNat (encodeImage (heldChunk s)) s))
  | decoded {w : Word} (hw : decode w = .ok .decode) (hcheck : decodeCheck s = none) :
      EventEffect s (.regWrite 0x00 w) (finishOk (wireLength (decodeDeclared s)) (decodeWrites s))
  | renewed {w : Word} (hw : decode w = .ok .new) :
      EventEffect s (.regWrite 0x00 w) (finishOk 0 (loadChunk s.params.defaultFlags 0#32 0#16 0#16 0#32 0#16 s))
  | raised {w : Word} (x : CmdError) : EventEffect s (.regWrite 0x00 w) (raise x s)
  | registerWritten {a : Nat} {v : Word} {t : State} (h : RegWriteEffect a v s t) : EventEffect s (.regWrite a v) t
  | answered {e : HostEvent} (v : BusValue) : EventEffect s e (answer v s)
  | answeredRefused {e : HostEvent} (v : BusValue) : EventEffect s e (answer v (refuse .access s))
  | byteWritten {e : HostEvent} {sp : Space} {a : Nat} (v : Byte) (ha : a < s.memSize sp) :
      EventEffect s e (s.setMem sp (Memory.write (s.mem sp) a v))
  | byteRefused {e : HostEvent} : EventEffect s e (refuse .access s)
  | reset : EventEffect s .reset (resetEvent s)

theorem exec_effect {w : Word} {i : Instr} (hw : decode w = .ok i) (s : State) :
    ∃ t, exec i s = .next t ∧ EventEffect s (.regWrite 0x00 w) t := by
  cases i with
  | encode =>
    obtain ⟨hfits, h⟩ | ⟨-, h⟩ := execEncode_cases s
    · exact ⟨_, h, .encoded hw hfits⟩
    · exact ⟨_, h, .raised .bounds⟩
  | decode =>
    obtain ⟨hcheck, h⟩ | ⟨x, -, h⟩ := execDecode_cases s
    · exact ⟨_, h, .decoded hw hcheck⟩
    · exact ⟨_, h, .raised x⟩
  | new => exact ⟨_, execNew_eq s, .renewed hw⟩

theorem regWrite_effect (a : Nat) (v : Word) (s : State) :
    ∃ t, regWrite a v s = .next t ∧ EventEffect s (.regWrite a v) t := by
  obtain ⟨rfl, h⟩ | ⟨t, ht, h⟩ := regWrite_cases a v s
  · obtain ⟨i, hw, hcmd⟩ | ⟨-, -, hcmd⟩ := cmdWrite_cases v s
    · rw [h, hcmd]
      exact exec_effect hw s
    · exact ⟨_, h.trans hcmd, .raised .illegalCmd⟩
  · exact ⟨t, h, .registerWritten ht⟩

theorem regRead_effect (e : HostEvent) (a : Nat) (s : State) : EventEffect s e (regRead a s) := by
  obtain ⟨r, -, h⟩ | ⟨-, h⟩ := regRead_cases a s <;> rw [h]
  · exact .answered _
  · exact .answeredRefused _

theorem byteRead_effect (e : HostEvent) (sp : Space) (a : Nat) (s : State) : EventEffect s e (byteRead sp a s) := by
  obtain ⟨-, h⟩ | ⟨-, h⟩ := byteRead_cases sp a s <;> rw [h]
  · exact .answered _
  · exact .answeredRefused _

theorem byteWrite_effect (e : HostEvent) (sp : Space) (a : Nat) (v : Byte) (s : State) :
    EventEffect s e (byteWrite sp a v s) := by
  obtain ⟨ha, h⟩ | ⟨-, h⟩ := byteWrite_cases sp a v s <;> rw [h]
  · exact .byteWritten v ha
  · exact .byteRefused

/-- Every host event completes in one of those ways (20_memory R63). -/
theorem perform_effect (e : HostEvent) (s : State) : ∃ t, perform e s = .next t ∧ EventEffect s e t := by
  cases e with
  | regRead a => exact ⟨_, rfl, regRead_effect _ a s⟩
  | regWrite a v => exact regWrite_effect a v s
  | bufRead a => exact ⟨_, rfl, byteRead_effect _ .buf a s⟩
  | bufWrite a v => exact ⟨_, rfl, byteWrite_effect _ .buf a v s⟩
  | pramRead a => exact ⟨_, rfl, byteRead_effect _ .pram a s⟩
  | pramWrite a v => exact ⟨_, rfl, byteWrite_effect _ .pram a v s⟩
  | reset => exact ⟨_, rfl, .reset⟩

/-! Lengths as the registers and RESULT hold them (10_state R25, R33, 40_lengths R101, R103). -/

/-- A word of at most 16 used bits keeps its value in a 16-bit register. -/
theorem toNat_extractLsb'_half {v : Word} (h : v.toNat ≤ Config.pramSize) : (v.extractLsb' 0 16).toNat = v.toNat := by
  have hsize : Config.pramSize < 2 ^ 16 := by decide
  rw [BitVec.extractLsb'_toNat, Nat.shiftRight_zero, Nat.mod_eq_of_lt (h.trans_lt hsize)]

/-- RESULT after a command that ends OK is 0 (NEW) or the wire length of a declared length of at most 65535 (10_state R25). -/
def LegalOkResult (res : Nat) : Prop := res = 0 ∨ (16 ≤ res ∧ res ≤ 65536 ∧ res % 4 = 0)

theorem legalOkResult_wireLength {d : Nat} (hmin : 16 ≤ d) (hmax : d ≤ 65535) : LegalOkResult (wireLength d) := by
  obtain ⟨hge, -, hmod⟩ := wireLength_spec d
  refine .inr ⟨hmin.trans hge, ?_, hmod⟩
  unfold wireLength
  omega

theorem payloadLength_le_pramSize {d : Nat} (hmax : d ≤ 65535) : payloadLength d ≤ Config.pramSize := by
  simp only [payloadLength, Config.pramSize]
  omega

/-! Each operation keeps the invariant. -/

section
variable {s : State} (h : s.Inv)
include h

theorem memory_legal_of_inv (sp : Space) : Memory.wf (s.mem sp) ∧ Memory.within (s.memSize sp) (s.mem sp) := by
  obtain ⟨-, -, -, -, hbufWf, hbufIn, hpramWf, hpramIn⟩ := h
  cases sp
  · exact ⟨hbufWf, hbufIn⟩
  · exact ⟨hpramWf, hpramIn⟩

theorem userLen_le_of_inv : s.userLen.toNat ≤ 65519 := by
  obtain ⟨-, -, -, ⟨-, huserLen⟩, -⟩ := h
  exact huserLen

theorem inv_setMem {sp : Space} {m : Memory} (hwf : Memory.wf m) (hin : Memory.within (s.memSize sp) m) : (s.setMem sp m).Inv := by
  obtain ⟨hparams, hstatus, hresult, hranges, hbufWf, hbufIn, hpramWf, hpramIn⟩ := h
  cases sp
  · exact ⟨hparams, hstatus, hresult, hranges, hwf, hin, hpramWf, hpramIn⟩
  · exact ⟨hparams, hstatus, hresult, hranges, hbufWf, hbufIn, hwf, hin⟩

theorem inv_putBytes (sp : Space) (a : Nat) (bs : List Byte) : (putBytes sp a bs s).Inv := by
  obtain ⟨hwf, hin⟩ := memory_legal_of_inv h sp
  exact inv_setMem h (Memory.storeBytes_wf _ a bs hwf) (Memory.storeBytes_within a bs hin)

theorem inv_byteWritten {sp : Space} {a : Nat} (v : Byte) (ha : a < s.memSize sp) :
    (s.setMem sp (Memory.write (s.mem sp) a v)).Inv := by
  obtain ⟨hwf, hin⟩ := memory_legal_of_inv h sp
  exact inv_setMem h (Memory.write_wf a v hwf) (Memory.write_within v ha hin)

theorem inv_loadChunk (f : BitVec 3) (t : Word) (i q : Half) (p : Word) {n : Half} (hn : n.toNat ≤ Config.pramSize) :
    (loadChunk f t i q p n s).Inv := by
  obtain ⟨hparams, hstatus, hresult, ⟨hbufLen, -⟩, hmem⟩ := h
  exact ⟨hparams, hstatus, hresult, ⟨hbufLen, hn⟩, hmem⟩

theorem inv_decodeWrites : (decodeWrites s).Inv := by
  have hn := payloadLength_le_pramSize (Nat.le_of_lt_succ (decodeDeclared_lt s))
  rw [decodeWrites_def]
  exact inv_loadChunk (inv_putBytes h ..) _ _ _ _ _ ((BitVec.toNat_ofNat ..).trans_le ((Nat.mod_le ..).trans hn))

/-- A failed command clears RESULT, so the new LAST ≠ OK is legal beside it (60_exceptions R203). -/
theorem inv_raise (x : CmdError) : (raise x s).Inv := by
  obtain ⟨hparams, ⟨hreserved, -⟩, -, hranges, hmem⟩ := h
  have hlast : x.code ≤ 3#4 := by cases x <;> decide
  exact ⟨hparams, ⟨by simpa using hreserved, by simpa using hlast⟩, .inl rfl, hranges, hmem⟩

/-- A command that ends OK sets LAST = OK with its RESULT (60_exceptions R201). -/
theorem inv_finishOk {res : Nat} (hres : LegalOkResult res) : (finishOk res s).Inv := by
  obtain ⟨hparams, ⟨hreserved, -⟩, -, hranges, hmem⟩ := h
  have hlast : okCode ≤ 3#4 := by decide
  refine ⟨hparams, ⟨by simpa using hreserved, by simpa using hlast⟩, ?_, hranges, hmem⟩
  obtain rfl | ⟨hmin, hmax, hmod⟩ := hres
  · exact .inl rfl
  · have hval : (BitVec.ofNat 32 res).toNat = res := by
      rw [BitVec.toNat_ofNat, Nat.mod_eq_of_lt (by omega)]
    refine .inr ⟨by simp, ?_⟩
    rw [finishOk_result, hval]
    exact ⟨hmin, hmax, hmod⟩

/-- A new STATUS that differs in sticky bits alone is as legal as the old one. -/
theorem inv_status {st : Word} (hreserved : statusReserved st = statusReserved s.status) (hlast : statusLast st = statusLast s.status) :
    ({ s with status := st } : State).Inv := by
  obtain ⟨hparams, hstatus, hresult, hranges, hmem⟩ := h
  refine ⟨hparams, ?_, ?_, hranges, hmem⟩
  · simpa [State.statusLegal, hreserved, hlast] using hstatus
  · simpa [State.resultLegal, hlast] using hresult

theorem inv_refuse (b : Sticky) : (refuse b s).Inv :=
  inv_status h (statusReserved_setSticky ..) (statusLast_setSticky ..)

theorem inv_acknowledge (v : Word) : (acknowledge v s).Inv :=
  inv_status h (statusReserved_clearSticky ..) (statusLast_clearSticky ..)

theorem RegWriteEffect.inv {a : Nat} {v : Word} {t : State} (ht : RegWriteEffect a v s t) : t.Inv := by
  cases ht with
  | acknowledged => exact inv_acknowledge h v
  | refused b => exact inv_refuse h b
  | bufLen _ hv =>
    obtain ⟨hparams, hstatus, hresult, ⟨-, huserLen⟩, hmem⟩ := h
    exact ⟨hparams, hstatus, hresult, ⟨hv, huserLen⟩, hmem⟩
  | userLen _ hv => exact inv_loadChunk h s.flags s.tsn s.sid s.ssn s.ppid ((toNat_extractLsb'_half hv).trans_le hv)
  | offset | flags | tsn | sid | ssn | ppid => exact h

end

/-- Whatever the memories held, a reset leaves legal ones (70_reset R231). -/
theorem inv_afterReset {p : Params} (hp : p.wf) (n : Nat) (es : List HostEvent) (vs : List BusValue) :
    (State.afterReset p n es vs).Inv := by
  have hstatus : statusReserved 0#32 = 0#32 ∧ statusLast 0#32 ≤ 3#4 := by decide
  have hbufLen : (BitVec.ofNat 32 p.bufSize).toNat ≤ p.bufSize := (BitVec.toNat_ofNat ..).trans_le (Nat.mod_le ..)
  exact ⟨hp, hstatus, .inl rfl, ⟨hbufLen, Nat.zero_le _⟩,
    Memory.launch_wf _ _, Memory.launch_within _ _, Memory.launch_wf _ _, Memory.launch_within _ _⟩

theorem config_params_wf : Config.params.wf := by
  have hmod : Config.rawBufSize % (2 ^ 32 - 16) < 2 ^ 32 - 16 := Nat.mod_lt _ (by decide)
  simp only [Params.wf, Config.params]
  omega

theorem EventEffect.inv {e : HostEvent} {s t : State} (h : s.Inv) (ht : EventEffect s e t) : t.Inv := by
  cases ht with
  | encoded =>
    have huserLen := userLen_le_of_inv h
    have hres : LegalOkResult (wireLenOf s) :=
      legalOkResult_wireLength (d := 16 + s.userLen.toNat) (by omega) (by omega)
    exact inv_finishOk (inv_putBytes h ..) hres
  | decoded _ hcheck =>
    obtain ⟨-, hmin, -⟩ := decodeCheck_eq_none.1 hcheck
    exact inv_finishOk (inv_decodeWrites h) (legalOkResult_wireLength hmin (Nat.le_of_lt_succ (decodeDeclared_lt s)))
  | renewed => exact inv_finishOk (inv_loadChunk h _ _ _ _ _ (Nat.zero_le _)) (.inl rfl)
  | raised x => exact inv_raise h x
  | registerWritten hwrite => exact hwrite.inv h
  | answered => exact h
  | answeredRefused => exact inv_refuse h .access
  | byteWritten v ha => exact inv_byteWritten h v ha
  | byteRefused => exact inv_refuse h .access
  | reset =>
    obtain ⟨hparams, -⟩ := h
    exact inv_afterReset hparams ..

/-- Settles O44: the parameters of the configuration are legal, and reset is legal for every such parameters and contents. -/
theorem resetMeetsTheInvariant : Obligations.ResetMeetsTheInvariant :=
  inv_afterReset config_params_wf 0 [] []

/-- Settles O45: taking an event off the queue changes nothing that the invariant speaks of, and each way an event can end keeps it. -/
theorem everyStepKeepsTheInvariant : Obligations.EveryStepKeepsTheInvariant := by
  intro s t h hst
  obtain ⟨-, hidle⟩ | ⟨e, rest, -, hstep⟩ := step_cases s
  · cases hidle.symm.trans hst
    exact h
  · have hpopped : ({ s with pending := rest } : State).Inv := h
    obtain ⟨u, hu, heffect⟩ := perform_effect e { s with pending := rest }
    cases (hstep.trans hu).symm.trans hst
    exact heffect.inv hpopped

/-! Sticky bits (10_state R23, 60_exceptions R207). -/

@[simp] theorem putBytes_status (sp : Space) (a : Nat) (bs : List Byte) (s : State) : (putBytes sp a bs s).status = s.status := by
  rw [putBytes_def, State.setMem_status]

@[simp] theorem decodeWrites_status (s : State) : (decodeWrites s).status = s.status := by
  rw [decodeWrites_def, loadChunk_status, putBytes_status]

section
variable {s : State} {k : Nat} (hset : s.status.getLsbD k = true)
include hset

theorem refuse_keeps_set (b : Sticky) : (refuse b s).status.getLsbD k = true := by
  rw [refuse_status, getLsbD_setSticky, hset, Bool.true_or]

/-- Of the register writes, only a STATUS write with a 1 in the bit clears it (43_control R176). -/
theorem RegWriteEffect.keeps_set {a : Nat} {v : Word} {t : State} (ht : RegWriteEffect a v s t)
    (hkeep : a = 0x04 → v.getLsbD k = false) : t.status.getLsbD k = true := by
  cases ht with
  | acknowledged ha => rw [acknowledge_status, getLsbD_clearSticky, hset, hkeep ha, Bool.false_and, Bool.not_false, Bool.and_true]
  | refused b => exact refuse_keeps_set hset b
  | offset | bufLen | flags | tsn | sid | ssn | ppid | userLen => exact hset

/-- A command writes LAST, below bit 4, and sets sticky bits; it clears none. -/
theorem EventEffect.keeps_set {e : HostEvent} {t : State} (ht : EventEffect s e t) (hk : 4 ≤ k) (hreset : e ≠ .reset)
    (hkeep : ∀ v, e = .regWrite 0x04 v → v.getLsbD k = false) : t.status.getLsbD k = true := by
  cases ht with
  | encoded => rw [getLsbD_finishOk _ _ k hk, putBytes_status, hset]
  | decoded => rw [getLsbD_finishOk _ _ k hk, decodeWrites_status, hset]
  | renewed => rw [getLsbD_finishOk _ _ k hk, loadChunk_status, hset]
  | raised x => rw [getLsbD_raise x s k hk, hset, Bool.true_or]
  | registerWritten hwrite => exact hwrite.keeps_set hset fun ha => hkeep _ (by rw [ha])
  | answered => exact hset
  | answeredRefused => exact refuse_keeps_set hset .access
  | byteWritten => rw [State.setMem_status, hset]
  | byteRefused => exact refuse_keeps_set hset .access
  | reset => exact absurd rfl hreset

end

/-- Settles O37: of the ways an event can end, only a reset and a STATUS write with a 1 in the bit clear it. -/
theorem stickyBitsStaySet : Obligations.StickyBitsStaySet := by
  intro e s k hk8 _ hset hreset hkeep
  obtain ⟨t, ht, heffect⟩ := perform_effect e s
  exact ⟨t, ht, heffect.keeps_set hset (by omega) hreset hkeep⟩

/-! The held chunk and the lengths (10_state R34, R35, R43, R44). -/

@[simp] theorem heldChunk_setMem_buf (s : State) (m : Memory) : heldChunk (s.setMem .buf m) = heldChunk s := rfl

@[simp] theorem heldChunk_refuse (b : Sticky) (s : State) : heldChunk (refuse b s) = heldChunk s := rfl

/-- Settles O20: a BUF write changes BUF alone or STATUS alone, and the held chunk is in neither. -/
theorem bufWriteKeepsTheHeldChunk : Obligations.BufWriteKeepsTheHeldChunk := by
  intro s a v
  refine ⟨byteWrite .buf a v s, rfl, ?_⟩
  obtain ⟨-, h⟩ | ⟨-, h⟩ := byteWrite_cases .buf a v s <;> rw [h]
  · exact heldChunk_setMem_buf ..
  · exact heldChunk_refuse ..

theorem regWrite_userLen_of_le {v : Word} (hv : v.toNat ≤ Config.pramSize) (s : State) :
    regWrite 0x28 v s = .next { s with userLen := v.extractLsb' 0 16 } := by
  have haddr : regAt 0x28 = some .userLen := regAt_eq_some.2 rfl
  simp [regWrite, haddr, applyInRange, hv]

theorem regRead_addr (r : RegName) (s : State) : regRead r.addr s = answer (.word (regValue r s)) s := by
  rw [regRead, regAt_eq_some.2 rfl]

theorem perform_regRead_declLen (s : State) :
    perform (.regRead 0x2C) s = .next (answer (.word (BitVec.ofNat 32 (16 + s.userLen.toNat))) s) :=
  congrArg Host.Outcome.next (regRead_addr .declLen s)

theorem perform_regRead_wireLen (s : State) :
    perform (.regRead 0x30) s = .next (answer (.word (BitVec.ofNat 32 (4 * ((16 + s.userLen.toNat + 3) / 4)))) s) :=
  congrArg Host.Outcome.next (regRead_addr .wireLen s)

/-- Settles O38: the value written fits USER_LEN whole, and DECL_LEN and WIRE_LEN are computed from USER_LEN when they are read. -/
theorem lengthsFollowUserLen : Obligations.LengthsFollowUserLen := by
  intro s v hv
  refine ⟨_, regWrite_userLen_of_le hv s, ?_⟩
  rw [← toNat_extractLsb'_half hv]
  exact ⟨perform_regRead_declLen _, perform_regRead_wireLen _⟩

end Sys2Proof.Machine
end

section
/-! The windows of the commands, and big-endian fields in a memory (spec 20_memory R50 to R61). -/

namespace Sys2Proof.Machine

/-! What the checks say about the windows (41_encode R120, 42_decode R141). -/

/-- The declared bytes are no more than the wire length that ENCODE checks. -/
theorem encodeWindow_le_bufLen {s : State} (h : encodeFits s = true) :
    s.offset.toNat + (16 + s.userLen.toNat) ≤ s.bufLen.toNat := by
  have hwire := (encodeFits_iff s).1 h
  omega

theorem raise_last_ne_ok (x : CmdError) (s : State) : statusLast (raise x s).status ≠ 0#4 := by
  rw [raise_status, statusLast_setSticky, statusLast_setLast]
  cases x <;> decide

/-- Settles O12: a check that passed would put at least 16 bytes between OFFSET and BUF_LEN, and BUF_LEN is below 2^32. -/
theorem offsetNeverWraps : Obligations.OffsetNeverWraps := by
  intro s hoffset
  have hbufLen : s.bufLen.toNat < 2 ^ 32 := s.bufLen.isLt
  constructor
  · obtain ⟨hfits, -⟩ | ⟨-, h⟩ := execEncode_cases s
    · have hwindow := encodeWindow_le_bufLen hfits
      omega
    · exact h
  · obtain ⟨hcheck, -⟩ | ⟨x, -, h⟩ := execDecode_cases s
    · obtain ⟨-, hmin, hroom⟩ := decodeCheck_eq_none.1 hcheck
      omega
    · exact ⟨_, h, raise_last_ne_ok x s, raise_buf .., raise_pram ..⟩

theorem bufLen_le_of_inv {s : State} (h : s.Inv) : s.bufLen.toNat ≤ s.params.bufSize := by
  obtain ⟨-, -, -, ⟨hbufLen, -⟩, -⟩ := h
  exact hbufLen

/-- Settles O13: the checks compare with BUF_LEN, which is at most BUF_SIZE, and both lengths fit 16 bits. -/
theorem passedChecksPutTheWindowsInsideTheMemories : Obligations.PassedChecksPutTheWindowsInsideTheMemories := by
  intro s h
  have hbufLen := bufLen_le_of_inv h
  refine ⟨fun hfits => ⟨?_, userLen_le_of_inv h⟩, fun hcheck => ⟨?_, ?_⟩⟩
  · exact (encodeWindow_le_bufLen hfits).trans hbufLen
  · obtain ⟨-, -, hroom⟩ := decodeCheck_eq_none.1 hcheck
    exact hroom.trans hbufLen
  · exact payloadLength_le_pramSize (Nat.le_of_lt_succ (decodeDeclared_lt s))

/-! A run of bytes that lies inside its memory: what its own addresses and all others hold, and what a copy of it reads. -/

section
variable {sp : Space} {a : Nat} {bs : List Byte} {s : State} (hwf : Memory.wf (s.mem sp)) (hroom : a + bs.length ≤ s.memSize sp)

include hwf in
theorem byteAt_putBytes_outside {c : Nat} (hc : c < a ∨ a + bs.length ≤ c) : byteAt sp c (putBytes sp a bs s) = byteAt sp c s := by
  rw [byteAt_putBytes _ _ _ _ _ hwf, if_neg (by omega)]

include hwf hroom

theorem byteAt_putBytes_inside {k : Nat} (hk : k < bs.length) : byteAt sp (a + k) (putBytes sp a bs s) = bs.getD k 0 := by
  rw [byteAt_putBytes _ _ _ _ _ hwf, if_pos (by omega), Nat.add_sub_cancel_left]

/-- byteAt_putBytes_inside as the host reads the memory. -/
theorem read_putBytes_inside {k : Nat} (hk : k < bs.length) : Memory.read ((putBytes sp a bs s).mem sp) (a + k) = bs.getD k 0 := by
  have hin : a + k < (putBytes sp a bs s).memSize sp := by
    rw [putBytes_def, State.setMem_memSize]
    omega
  rw [← byteAt_of_lt hin, byteAt_putBytes_inside hwf hroom hk]

theorem bytesAt_putBytes_same : bytesAt sp a bs.length (putBytes sp a bs s) = bs := by
  refine List.ext_getElem (length_bytesAt ..) fun k hk hk' => ?_
  rw [← List.getD_eq_getElem _ 0 hk, ← List.getD_eq_getElem _ 0 hk', getD_bytesAt _ _ _ _ _ _ hk',
    byteAt_putBytes_inside hwf hroom hk']

end

section
variable {sp : Space} {a : Nat} {s : State} (hwf : Memory.wf (s.mem sp))
include hwf

theorem readU32BE_writeU32BE (v : Word) (hroom : a + 4 ≤ s.memSize sp) : readU32BE sp a (writeU32BE sp a v s) = v := by
  have hbytes : bytesAt sp a 4 (writeU32BE sp a v s) = beBytes32 v := bytesAt_putBytes_same hwf hroom
  rw [readU32BE, memRead, hbytes, beValue_beBytes32]

theorem readU16BE_writeU16BE (v : Half) (hroom : a + 2 ≤ s.memSize sp) : readU16BE sp a (writeU16BE sp a v s) = v := by
  have hbytes : bytesAt sp a 2 (writeU16BE sp a v s) = beBytes16 v := bytesAt_putBytes_same hwf hroom
  rw [readU16BE, memRead, hbytes, beValue_beBytes16]

end

/-- Settles O41: a field is written as the run of its bytes in wire order, and that run is read back. -/
theorem fieldsAreBigEndian : Obligations.FieldsAreBigEndian := by
  intro sp a v h s hwf
  refine ⟨fun hroom => ?_, fun hroom => ?_⟩
  · have hbyte {k : Nat} (hk : k < 4) : byteAt sp (a + k) (writeU32BE sp a v s) = (beBytes32 v).getD k 0 :=
      byteAt_putBytes_inside hwf hroom hk
    exact ⟨hbyte (k := 0) (by decide), hbyte (k := 1) (by decide), hbyte (k := 2) (by decide), hbyte (k := 3) (by decide),
      readU32BE_writeU32BE hwf v hroom, fun c hc => byteAt_putBytes_outside (bs := beBytes32 v) hwf hc⟩
  · have hbyte {k : Nat} (hk : k < 2) : byteAt sp (a + k) (writeU16BE sp a h s) = (beBytes16 h).getD k 0 :=
      byteAt_putBytes_inside hwf hroom hk
    exact ⟨hbyte (k := 0) (by decide), hbyte (k := 1) (by decide), readU16BE_writeU16BE hwf h hroom,
      fun c hc => byteAt_putBytes_outside (bs := beBytes16 h) hwf hc⟩

end Sys2Proof.Machine
end

section
/-! A read returns the last write (spec 20_memory R63): what each write leaves at its place, and that it stands until the next one. -/

namespace Sys2Proof.Machine

/-! What a host write leaves at its place (43_control R175, R177, R178). -/

theorem byteWrite_of_lt {sp : Space} {a : Nat} {s : State} (v : Byte) (ha : a < s.memSize sp) :
    byteWrite sp a v s = s.setMem sp (Memory.write (s.mem sp) a v) := by
  rw [byteWrite, if_pos ha]

theorem read_byteWrite_same {sp : Space} {a : Nat} {s : State} (v : Byte) (hwf : Memory.wf (s.mem sp)) (ha : a < s.memSize sp) :
    Memory.read ((byteWrite sp a v s).mem sp) a = v := by
  rw [byteWrite_of_lt v ha, State.setMem_mem, Memory.read_write _ _ _ hwf, if_pos rfl]

theorem setWidth_extractLsb'_of_lt {n : Nat} {v : Word} (h : v.toNat < 2 ^ n) : (v.extractLsb' 0 n).setWidth 32 = v := by
  apply BitVec.eq_of_toNat_eq
  rw [BitVec.toNat_setWidth, BitVec.extractLsb'_toNat, Nat.shiftRight_zero, Nat.mod_eq_of_lt h, Nat.mod_eq_of_lt v.isLt]

theorem applyInRange_of_legal {legal : Bool} (h : legal = true) (written s : State) : applyInRange legal written s = written := by
  rw [applyInRange, if_pos h]

/-- The registers that a host write sets to the value written, each with its largest legal value (43_control R175). -/
def writableLimits (s : State) : List (RegName × Nat) :=
  [(.offset, 2 ^ 32 - 1), (.bufLen, s.params.bufSize), (.flags, 7), (.tsn, 2 ^ 32 - 1), (.sid, 0xFFFF), (.ssn, 0xFFFF),
    (.ppid, 2 ^ 32 - 1), (.userLen, 65519)]

/-- A legal value is applied, and the register reads as the value written (43_control R175). -/
theorem regValue_regWrite_same {s : State} {r : RegName} {limit : Nat} {v : Word} (hr : (r, limit) ∈ writableLimits s)
    (hv : v.toNat ≤ limit) : ∃ t, regWrite r.addr v s = .next t ∧ regValue r t = v := by
  have applied {legal : Bool} (written : State) (h : legal = true) :
      Host.Outcome.next (φ := Fault) (ρ := Refusal) (applyInRange legal written s) = .next written :=
    congrArg _ (applyInRange_of_legal h written s)
  have upperClear (n m : Nat) (hnm : n + m = 32) (hlt : v.toNat < 2 ^ n) : decide (v.extractLsb' n m = 0#m) = true :=
    decide_eq_true ((extractLsb'_eq_zero_iff v n m hnm).2 hlt)
  simp only [writableLimits, List.mem_cons, Prod.mk.injEq, List.not_mem_nil, or_false] at hr
  obtain ⟨rfl, rfl⟩ | ⟨rfl, rfl⟩ | ⟨rfl, rfl⟩ | ⟨rfl, rfl⟩ | ⟨rfl, rfl⟩ | ⟨rfl, rfl⟩ | ⟨rfl, rfl⟩ | ⟨rfl, rfl⟩ := hr
  · exact ⟨{ s with offset := v }, rfl, rfl⟩
  · exact ⟨{ s with bufLen := v }, applied _ (decide_eq_true hv), rfl⟩
  · have hlt : v.toNat < 2 ^ 3 := Nat.lt_succ_of_le hv
    exact ⟨{ s with flags := v.extractLsb' 0 3 }, applied _ (upperClear 3 29 rfl hlt), setWidth_extractLsb'_of_lt hlt⟩
  · exact ⟨{ s with tsn := v }, rfl, rfl⟩
  · have hlt : v.toNat < 2 ^ 16 := Nat.lt_succ_of_le hv
    exact ⟨{ s with sid := v.extractLsb' 0 16 }, applied _ (upperClear 16 16 rfl hlt), setWidth_extractLsb'_of_lt hlt⟩
  · have hlt : v.toNat < 2 ^ 16 := Nat.lt_succ_of_le hv
    exact ⟨{ s with ssn := v.extractLsb' 0 16 }, applied _ (upperClear 16 16 rfl hlt), setWidth_extractLsb'_of_lt hlt⟩
  · exact ⟨{ s with ppid := v }, rfl, rfl⟩
  · exact ⟨_, regWrite_userLen_of_le hv s, setWidth_extractLsb'_of_lt (by omega)⟩

/-! What a command that ends OK leaves (41_encode R125, 42_decode R140, 43_control R170). -/

theorem perform_commandEvent (i : Instr) (s : State) : perform (commandEvent i) s = exec i s := by
  cases i <;> rfl

theorem execEncode_of_fits {s : State} (h : encodeFits s = true) :
    execEncode s = .next (finishOk (wireLenOf s) (putBytes .buf s.offset.toNat (encodeImage (heldChunk s)) s)) := by
  rw [execEncode, if_pos h, encodeWrites_eq]

theorem execDecode_of_check {s : State} (h : decodeCheck s = none) :
    execDecode s = .next (finishOk (wireLength (decodeDeclared s)) (decodeWrites s)) := by
  rw [execDecode, h]

theorem length_encodeImage_heldChunk (s : State) : (encodeImage (heldChunk s)).length = 16 + s.userLen.toNat := by
  rw [length_encodeImage, length_userData, declaredLength_eq]

theorem read_encodeWindow {s : State} {k : Nat} (hwf : Memory.wf s.buf)
    (hroom : s.offset.toNat + (16 + s.userLen.toNat) ≤ s.params.bufSize) (hk : k < 16 + s.userLen.toNat) :
    Memory.read (putBytes .buf s.offset.toNat (encodeImage (heldChunk s)) s).buf (s.offset.toNat + k) =
      (encodeImage (heldChunk s)).getD k 0 := by
  rw [← length_encodeImage_heldChunk] at hroom hk
  exact read_putBytes_inside (sp := .buf) hwf hroom hk

theorem read_decodeWrites_pram {s : State} {k : Nat} (hwf : Memory.wf s.pram) (hk : k < payloadLength (decodeDeclared s)) :
    Memory.read (decodeWrites s).pram k = byteAt .buf (s.offset.toNat + 16 + k) s := by
  have hroom := payloadLength_le_pramSize (Nat.le_of_lt_succ (decodeDeclared_lt s))
  have hbyte := read_putBytes_inside (sp := .pram) (a := 0) (bs := bytesAt .buf (s.offset.toNat + 16) (payloadLength (decodeDeclared s)) s)
    hwf (by rwa [Nat.zero_add, length_bytesAt]) (hk.trans_eq (length_bytesAt ..).symm)
  rw [getD_bytesAt _ _ _ _ _ _ hk, Nat.zero_add] at hbyte
  exact hbyte

theorem setWidth_userLen_decodeWrites (s : State) :
    (decodeWrites s).userLen.setWidth 32 = BitVec.ofNat 32 (decodeDeclared s - 16) :=
  BitVec.setWidth_ofNat_of_le_of_lt (by decide) ((Nat.sub_le ..).trans_lt (decodeDeclared_lt s))

/-! The places that an event leaves with a value, in a state that meets the invariant. -/

/-- The event completes in a state that meets the invariant, and the place then holds the value. -/
def Leaves (s : State) (e : HostEvent) (l : Location) (x : BusValue) : Prop :=
  ∃ t, perform e s = .next t ∧ t.Inv ∧ l.value t = x

section
variable {s : State} (h : s.Inv)
include h

theorem inv_of_perform {e : HostEvent} {t : State} (ht : perform e s = .next t) : t.Inv := by
  obtain ⟨u, hu, heffect⟩ := perform_effect e s
  cases hu.symm.trans ht
  exact heffect.inv h

theorem leaves_of_perform {e : HostEvent} {t : State} {l : Location} {x : BusValue} (ht : perform e s = .next t)
    (hx : l.value t = x) : Leaves s e l x :=
  ⟨t, ht, inv_of_perform h ht, hx⟩

theorem leaves_bufWrite (a : Nat) (v : Byte) (ha : a < s.params.bufSize) : Leaves s (.bufWrite a v) (.byte .buf a) (.byte v) := by
  obtain ⟨hwf, -⟩ := memory_legal_of_inv h .buf
  exact leaves_of_perform h rfl (congrArg BusValue.byte (read_byteWrite_same v hwf ha))

theorem leaves_pramWrite (a : Nat) (v : Byte) (ha : a < 65519) : Leaves s (.pramWrite a v) (.byte .pram a) (.byte v) := by
  obtain ⟨hwf, -⟩ := memory_legal_of_inv h .pram
  exact leaves_of_perform h rfl (congrArg BusValue.byte (read_byteWrite_same v hwf ha))

theorem leaves_regWrite (r : RegName) (limit : Nat) (v : Word) (hr : (r, limit) ∈ writableLimits s) (hv : v.toNat ≤ limit) :
    Leaves s (.regWrite r.addr v) (.reg r) (.word v) := by
  obtain ⟨t, ht, hvalue⟩ := regValue_regWrite_same hr hv
  exact leaves_of_perform h ht (congrArg BusValue.word hvalue)

theorem encode_leaves (hfits : encodeFits s = true) :
    Leaves s (commandEvent .encode) (.reg .result) (.word (BitVec.ofNat 32 (4 * ((16 + s.userLen.toNat + 3) / 4)))) ∧
    ∀ k < 16 + s.userLen.toNat,
      Leaves s (commandEvent .encode) (.byte .buf (s.offset.toNat + k)) (.byte ((encodeImage (heldChunk s)).getD k 0x00#8)) := by
  have hrun := (perform_commandEvent .encode s).trans (execEncode_of_fits hfits)
  obtain ⟨hwf, -⟩ := memory_legal_of_inv h .buf
  have hwindow := (encodeWindow_le_bufLen hfits).trans (bufLen_le_of_inv h)
  refine ⟨leaves_of_perform h hrun rfl, fun k hk => leaves_of_perform h hrun ?_⟩
  exact congrArg BusValue.byte (read_encodeWindow hwf hwindow hk)

theorem decode_leaves (hcheck : decodeCheck s = none) :
    Leaves s (commandEvent .decode) (.reg .result) (.word (BitVec.ofNat 32 (4 * ((decodeDeclared s + 3) / 4)))) ∧
    Leaves s (commandEvent .decode) (.reg .userLen) (.word (BitVec.ofNat 32 (decodeDeclared s - 16))) ∧
    ∀ k < decodeDeclared s - 16,
      Leaves s (commandEvent .decode) (.byte .pram k) (.byte (byteAt .buf (s.offset.toNat + 16 + k) s)) := by
  have hrun := (perform_commandEvent .decode s).trans (execDecode_of_check hcheck)
  obtain ⟨hwf, -⟩ := memory_legal_of_inv h .pram
  exact ⟨leaves_of_perform h hrun rfl,
    leaves_of_perform h hrun (congrArg BusValue.word (setWidth_userLen_decodeWrites s)),
    fun k hk => leaves_of_perform h hrun (congrArg BusValue.byte (read_decodeWrites_pram hwf hk))⟩

theorem new_leaves : Leaves s (commandEvent .new) (.reg .userLen) (.word 0#32) :=
  leaves_of_perform h ((perform_commandEvent .new s).trans (execNew_eq s)) rfl

end

/-! What a place holds stands through a run of events that do not write it. -/

theorem runEvents_cons {e : HostEvent} {es : List HostEvent} {s t : State} (h : perform e s = .next t) :
    runEvents (e :: es) s = runEvents es t := by
  rw [runEvents, h]

theorem Location.unwritten_cons {l : Location} {e : HostEvent} {es : List HostEvent} {s t : State} (h : perform e s = .next t) :
    l.unwritten (e :: es) s = true ↔ l.writtenBy s e = false ∧ l.unwritten es t = true := by
  rw [Location.unwritten, h, Bool.and_eq_true, Bool.not_eq_true']

theorem runEvents_value {l : Location} {es : List HostEvent} {s : State} (h : s.Inv) (hes : l.unwritten es s = true) :
    ∃ t, runEvents es s = .next t ∧ l.value t = l.value s ∧ t.params = s.params := by
  induction es generalizing s with
  | nil => exact ⟨s, rfl, rfl, rfl⟩
  | cons e es ih =>
    obtain ⟨u, hu, hparams, -⟩ := perform_completesKeepingSetup e s
    obtain ⟨hwritten, hrest⟩ := (Location.unwritten_cons hu).1 hes
    obtain ⟨hbuf, -⟩ := memory_legal_of_inv h .buf
    obtain ⟨hpram, -⟩ := memory_legal_of_inv h .pram
    obtain ⟨u', hu', hvalue⟩ := perform_value hbuf hpram hwritten
    cases hu.symm.trans hu'
    obtain ⟨t, ht, htvalue, htparams⟩ := ih (inv_of_perform h hu) hrest
    exact ⟨t, (runEvents_cons hu).trans ht, htvalue.trans hvalue, htparams.trans hparams⟩

theorem Location.mapped_congr {l : Location} {s t : State} (h : t.params = s.params) : l.mapped t = l.mapped s := by
  cases l with
  | reg r => rfl
  | byte sp a =>
    have hsize : t.memSize sp = s.memSize sp := by cases sp <;> simp [h]
    simp only [Location.mapped, hsize]

theorem byteRead_of_lt {sp : Space} {a : Nat} {s : State} (ha : a < s.memSize sp) :
    byteRead sp a s = answer (.byte (Memory.read (s.mem sp) a)) s := by
  rw [byteRead, if_pos ha]

/-- Reading a place that exists returns what it holds (43_control R174, R177, R178). -/
theorem perform_readEvent {l : Location} {s : State} (h : l.mapped s = true) :
    perform l.readEvent s = .next (answer (l.value s) s) := by
  cases l with
  | reg r => exact congrArg Host.Outcome.next (regRead_addr r s)
  | byte sp a =>
    have hread := congrArg (Host.Outcome.next (φ := Fault) (ρ := Refusal)) (byteRead_of_lt (of_decide_eq_true h))
    cases sp <;> exact hread

theorem read_after_unwritten_run {l : Location} {es : List HostEvent} {s : State} (h : s.Inv) (hmapped : l.mapped s = true)
    (hes : l.unwritten es s = true) :
    ∃ t, runEvents es s = .next t ∧ perform l.readEvent t = .next { t with returned := t.returned ++ [l.value s] } := by
  obtain ⟨t, ht, hvalue, hparams⟩ := runEvents_value h hes
  have hread := perform_readEvent ((Location.mapped_congr hparams).trans hmapped)
  rw [hvalue] at hread
  exact ⟨t, ht, hread⟩

/-! Two steps next to each other. -/

theorem bufWrite_then_bufRead {s : State} {a : Nat} {v : Byte} {rest : List HostEvent} (hwf : Memory.wf s.buf)
    (ha : a < s.params.bufSize) (hpending : s.pending = .bufWrite a v :: .bufRead a :: rest) :
    ∃ t u, step s = .next t ∧ step t = .next u ∧ u.returned = s.returned ++ [.byte v] ∧ u.pending = rest := by
  have hvalue : (Location.byte .buf a).value { s with pending := rest, buf := Memory.write s.buf a v } = .byte v :=
    congrArg BusValue.byte ((Memory.read_write a v a hwf).trans (if_pos rfl))
  refine ⟨{ s with pending := .bufRead a :: rest, buf := Memory.write s.buf a v },
    answer (.byte v) { s with pending := rest, buf := Memory.write s.buf a v }, ?_, ?_, rfl, rfl⟩
  · rw [step_of_pending_cons hpending]
    exact congrArg Host.Outcome.next (byteWrite_of_lt v ha)
  · rw [step_of_pending_cons rfl, ← hvalue]
    exact perform_readEvent (l := .byte .buf a) (decide_eq_true ha)

/-- Settles O35: each write leaves its value at its place, events that do not write the place keep it, and a read returns it. -/
theorem readReturnsTheLastWrite : Obligations.ReadReturnsTheLastWrite := by
  intro s
  refine ⟨fun a v rest hwf ha hpending => bufWrite_then_bufRead hwf ha hpending, fun h => ?_⟩
  exact ⟨leaves_bufWrite h, leaves_pramWrite h, leaves_regWrite h, encode_leaves h, decode_leaves h, new_leaves h,
    fun l es hmapped hes => read_after_unwritten_run h hmapped hes⟩

end Sys2Proof.Machine
end

section
/-! The command words (spec 30_encoding R80 to R82): a word is its two fields, and what the decoder answers for each kind of fields. -/

namespace Sys2Proof.Machine

theorem cmdWord_cmdFields (w : Word) : cmdWord (cmdFields w) = w := BitVec.extractLsb'_append_extractLsb'

theorem decode_encode (i : Instr) : decode (encode i) = .ok i := by
  have hword : Laws.CommandWord.Statement i := match i with
    | .encode => Laws.CommandWord.encode
    | .decode => Laws.CommandWord.decode
    | .new => Laws.CommandWord.new
  obtain ⟨-, -, hdecode⟩ := hword
  exact hdecode

theorem eq_encode_of_decode {w : Word} {i : Instr} (h : decode w = .ok i) : w = encode i := by
  obtain ⟨hrsv, hop⟩ := decode_ok_cases h
  calc
    w = cmdWord ⟨(cmdFields w).rsv, (cmdFields w).op⟩ := (cmdWord_cmdFields w).symm
    _ = encode i := by rw [hrsv, hop, encode]

theorem decode_of_rsv_ne_zero {w : Word} (h : (cmdFields w).rsv ≠ 0#24) :
    decode w = .error (.reservedBits (cmdFields w).rsv) := by
  simp [decode, CmdFields.rsvClear, h]

theorem decode_of_op_unassigned {w : Word} (hrsv : (cmdFields w).rsv = 0#24) (hop : ∀ i, (cmdFields w).op ≠ opcode i) :
    decode w = .error (.reservedOpcode (cmdFields w).op) := by
  have h1 : (cmdFields w).op ≠ 0x01#8 := hop .encode
  have h2 : (cmdFields w).op ≠ 0x02#8 := hop .decode
  have h3 : (cmdFields w).op ≠ 0x03#8 := hop .new
  simp [decode, CmdFields.rsvClear, hrsv, h1, h2, h3]

/-- The opcodes of the map are 0x01 to 0x03 (30_encoding R81). -/
theorem opcode_ne_of_reserved {op : BitVec 8} (h : op = 0x00#8 ∨ 0x04#8 ≤ op) (i : Instr) : op ≠ opcode i := by
  rintro rfl
  cases i <;> exact absurd h (by decide)

/-- Settles O1: the three words of the table are the encodings of the three commands. -/
theorem commandWordsDecodeAsTabled : Obligations.CommandWordsDecodeAsTabled :=
  ⟨decode_encode .encode, decode_encode .decode, decode_encode .new⟩

/-- Settles O2: every command is well formed, and its word decodes to it. -/
theorem encodedCommandDecodesBack : Obligations.EncodedCommandDecodesBack := fun i _ => decode_encode i

/-- Settles O3: a word that decodes is put together again from its fields, and the two refusals are those of the decoder's checks. -/
theorem onlyEncodedWordsDecode : Obligations.OnlyEncodedWordsDecode := by
  refine ⟨fun w i => ⟨eq_encode_of_decode, ?_⟩, fun w hrsv => decode_of_rsv_ne_zero hrsv, fun w hrsv hop => ?_⟩
  · rintro rfl
    exact decode_encode i
  · exact decode_of_op_unassigned hrsv (opcode_ne_of_reserved hop)

end Sys2Proof.Machine
end

section
/-! What ENCODE depends on (spec 30_encoding R83, 41_encode R120): the held chunk decides the run of bytes, and that run decides its window. -/

namespace Sys2Proof.Machine

theorem execEncode_of_not_fits {s : State} (h : encodeFits s = false) : execEncode s = .next (raise .bounds s) := by
  simp [execEncode, h]

/-- Outside its memory the engine's view of a byte does not depend on the state (log 5). -/
theorem byteAt_of_le {sp : Space} {a : Nat} {s : State} (h : s.memSize sp ≤ a) : byteAt sp a s = Config.absentByte sp a := by
  rw [byteAt, Memory.load, if_neg (by omega)]

/-- A run written into two memories of one size leaves the same bytes in its window, also where the window goes beyond the memory. -/
theorem byteAt_putBytes_window_congr {sp : Space} {a k : Nat} {bs : List Byte} {s t : State} (hs : Memory.wf (s.mem sp))
    (ht : Memory.wf (t.mem sp)) (hsize : t.memSize sp = s.memSize sp) (hk : k < bs.length) :
    byteAt sp (a + k) (putBytes sp a bs t) = byteAt sp (a + k) (putBytes sp a bs s) := by
  rw [byteAt_putBytes _ _ _ _ _ hs, byteAt_putBytes _ _ _ _ _ ht, hsize]
  by_cases hin : a + k < s.memSize sp
  · rw [if_pos (by omega), if_pos (by omega)]
  · rw [if_neg (by omega), if_neg (by omega), byteAt_of_le (by omega), byteAt_of_le (by omega)]

/-- BUF, and PRAM at or above USER_LEN, are no part of the held chunk (10_state R43). -/
theorem heldChunk_with_memories {s : State} {m p : Memory}
    (h : ∀ k < s.userLen.toNat, byteAt .pram k { s with buf := m, pram := p } = byteAt .pram k s) :
    heldChunk { s with buf := m, pram := p } = heldChunk s := by
  have hdata : bytesAt .pram 0 s.userLen.toNat { s with buf := m, pram := p } = bytesAt .pram 0 s.userLen.toNat s :=
    bytesAt_congr fun k hk => by rw [Nat.zero_add, h k hk]
  exact congrArg (HeldChunk.mk _ _ _ _ _ _ _) hdata

/-- Settles O47: ENCODE's check reads registers alone, and the bytes that it writes are the image of the held chunk. -/
theorem encodeDependsOnItsChunkAlone : Obligations.EncodeDependsOnItsChunkAlone := by
  intro s m p hbuf hm hpram
  have hchunk := heldChunk_with_memories hpram
  cases hfits : encodeFits s with
  | false =>
    have hother : encodeFits { s with buf := m, pram := p } = false := hfits
    refine ⟨_, _, execEncode_of_not_fits hfits, execEncode_of_not_fits hother, rfl, fun hok => ?_⟩
    exact absurd hok (raise_last_ne_ok .bounds s)
  | true =>
    have hother : encodeFits { s with buf := m, pram := p } = true := hfits
    refine ⟨_, _, execEncode_of_fits hfits, execEncode_of_fits hother, rfl, fun _ k hk => ?_⟩
    rw [byteAt_finishOk, byteAt_finishOk, hchunk]
    exact byteAt_putBytes_window_congr (sp := .buf) hbuf hm rfl (hk.trans_eq (length_encodeImage_heldChunk s).symm)

end Sys2Proof.Machine
end

section
/-! The pseudo-instructions (spec 30_encoding R85): their transactions, and what the transactions do when they run one after the other. -/

namespace Sys2Proof.Machine

/-! Runs. -/

theorem runEvents_singleton (e : HostEvent) (s : State) : runEvents [e] s = perform e s := by
  obtain ⟨t, ht, -⟩ := perform_completesKeepingSetup e s
  rw [runEvents_cons ht, ht, runEvents]

theorem runEvents_append {es fs : List HostEvent} {s t : State} (h : runEvents es s = .next t) :
    runEvents (es ++ fs) s = runEvents fs t := by
  induction es generalizing s with
  | nil =>
    cases h
    rfl
  | cons e es ih =>
    obtain ⟨u, hu, -⟩ := perform_completesKeepingSetup e s
    rw [runEvents_cons hu] at h
    rw [List.cons_append, runEvents_cons hu, ih h]

/-- An OFFSET write, then a command: the command runs at that OFFSET (43_control R175). -/
theorem runEvents_offset_command (off : Word) (i : Instr) (s : State) :
    runEvents [.regWrite 0x0C off, commandEvent i] s = exec i { s with offset := off } := by
  have hoffset : perform (.regWrite 0x0C off) s = .next { s with offset := off } := rfl
  rw [runEvents_cons hoffset, runEvents_singleton, perform_commandEvent]

/-! Byte writes from an address upward are one run of bytes written. -/

theorem byteEvents_eq_mapIdx (write : Nat → Byte → HostEvent) (a : Nat) (bs : List Byte) :
    byteEvents write a bs = bs.mapIdx fun k b => write (a + k) b := by
  induction bs generalizing a with
  | nil => rfl
  | cons b bs ih =>
    simp only [byteEvents, ih, List.mapIdx_cons, Nat.add_zero, Nat.add_assoc, Nat.add_comm 1]

theorem putBytes_nil (sp : Space) (a : Nat) (s : State) : putBytes sp a [] s = s := by
  cases sp <;> rfl

theorem byteWrite_eq_putBytes {sp : Space} {a : Nat} {s : State} (v : Byte) (ha : a < s.memSize sp) :
    byteWrite sp a v s = putBytes sp a [v] s := by
  rw [byteWrite_of_lt v ha, putBytes_def, Memory.storeBytes, Memory.storeBytes, Memory.store, if_pos ha]

theorem runEvents_byteEvents {sp : Space} {write : Nat → Byte → HostEvent}
    (hwrite : ∀ a v s, perform (write a v) s = .next (byteWrite sp a v s)) {a : Nat} {bs : List Byte} {s : State}
    (hroom : a + bs.length ≤ s.memSize sp) : runEvents (byteEvents write a bs) s = .next (putBytes sp a bs s) := by
  induction bs generalizing a s with
  | nil => rw [putBytes_nil, byteEvents, runEvents]
  | cons b bs ih =>
    rw [List.length_cons] at hroom
    have hfirst : perform (write a b) s = .next (putBytes sp a [b] s) :=
      (hwrite a b s).trans (congrArg _ (byteWrite_eq_putBytes b (by omega)))
    have hrest : a + 1 + bs.length ≤ (putBytes sp a [b] s).memSize sp := by
      rw [putBytes_def, State.setMem_memSize]
      omega
    rw [byteEvents, runEvents_cons hfirst, ih hrest, putBytes_append sp a (a + 1) [b] bs s rfl, List.singleton_append]

/-- What each byte of a memory is after a run of bytes that lies inside it. -/
theorem byteAt_putBytes_of_room {sp : Space} {a : Nat} {bs : List Byte} {s : State} (hwf : Memory.wf (s.mem sp))
    (hroom : a + bs.length ≤ s.memSize sp) (c : Nat) :
    byteAt sp c (putBytes sp a bs s) = if a ≤ c ∧ c < a + bs.length then bs.getD (c - a) 0 else byteAt sp c s := by
  rw [byteAt_putBytes _ _ _ _ _ hwf]
  exact if_congr (by omega) rfl rfl

theorem runEvents_wbytes (s : State) (a : Nat) (bs : List Byte) (hwf : Memory.wf s.buf) (hroom : a + bs.length ≤ s.params.bufSize) :
    ∃ t, runEvents (ScriptLine.wbytes a bs).events s = .next t ∧ t = { s with buf := t.buf } ∧
      ∀ c, byteAt .buf c t = if a ≤ c ∧ c < a + bs.length then bs.getD (c - a) 0x00#8 else byteAt .buf c s :=
  ⟨_, runEvents_byteEvents (sp := .buf) (fun _ _ _ => rfl) hroom, rfl, byteAt_putBytes_of_room (sp := .buf) hwf hroom⟩

/-! wpayload: the bytes, then their number in USER_LEN (43_control R175). -/

theorem regWrite_userLen_ofNat {n : Nat} (hn : n ≤ 65519) (s : State) :
    regWrite 0x28 (BitVec.ofNat 32 n) s = .next { s with userLen := BitVec.ofNat 16 n } := by
  have hlow : (BitVec.ofNat 32 n).extractLsb' 0 16 = BitVec.ofNat 16 n := by
    rw [← BitVec.setWidth_eq_extractLsb' (by decide), BitVec.setWidth_ofNat_of_le (by decide)]
  rw [regWrite_userLen_of_le ((BitVec.toNat_ofNat ..).trans_le ((Nat.mod_le ..).trans hn)), hlow]

theorem runEvents_wpayload (s : State) (bs : List Byte) (hwf : Memory.wf s.pram) (hlen : bs.length ≤ 65519) :
    ∃ t, runEvents (ScriptLine.wpayload bs).events s = .next t ∧ t = { s with pram := t.pram, userLen := BitVec.ofNat 16 bs.length } ∧
      ∀ c, byteAt .pram c t = if c < bs.length then bs.getD c 0x00#8 else byteAt .pram c s := by
  have hroom : 0 + bs.length ≤ s.memSize .pram := by rwa [Nat.zero_add]
  have hbytes : runEvents (byteEvents .pramWrite 0 bs) s = .next (putBytes .pram 0 bs s) :=
    runEvents_byteEvents (fun _ _ _ => rfl) hroom
  refine ⟨{ putBytes .pram 0 bs s with userLen := BitVec.ofNat 16 bs.length }, ?_, rfl, fun c => ?_⟩
  · rw [ScriptLine.events, runEvents_append hbytes, runEvents_singleton]
    exact regWrite_userLen_ofNat hlen _
  · have hbyte := byteAt_putBytes_of_room (sp := .pram) hwf hroom c
    simp only [Nat.zero_le, true_and, Nat.zero_add, Nat.sub_zero] at hbyte
    exact hbyte

/-! clear_sticky and set_flags (43_control R175, R176). -/

theorem runEvents_clearSticky (s : State) :
    runEvents ScriptLine.clearSticky.events s = .next { s with status := s.status &&& 0xFFFFE0FF#32 } := rfl

theorem regWrite_flags_of_clear {v : Word} (h : v.extractLsb' 3 29 = 0#29) (s : State) :
    regWrite 0x14 v s = .next { s with flags := v.extractLsb' 0 3 } := by
  have haddr : regAt 0x14 = some .flags := regAt_eq_some.2 rfl
  simp [regWrite, haddr, applyInRange, h]

/-- The number of set_flags is U‖B‖E, with nothing above (30_encoding R85). -/
theorem extractLsb'_flagsNumber : ∀ u b e : Bool,
    (BitVec.ofNat 32 (4 * u.toNat + 2 * b.toNat + e.toNat)).extractLsb' 3 29 = 0#29 ∧
    (BitVec.ofNat 32 (4 * u.toNat + 2 * b.toNat + e.toNat)).extractLsb' 0 3 = BitVec.ofBool u ++ BitVec.ofBool b ++ BitVec.ofBool e := by
  decide

theorem runEvents_setFlags (s : State) (u b e : Bool) :
    runEvents (ScriptLine.setFlags u b e).events s =
      .next { s with flags := BitVec.ofBool u ++ BitVec.ofBool b ++ BitVec.ofBool e } := by
  obtain ⟨hclear, hflags⟩ := extractLsb'_flagsNumber u b e
  rw [ScriptLine.events, runEvents_singleton, ← hflags]
  exact regWrite_flags_of_clear hclear s

/-- Settles O42: byte writes are numbered from their address, and each line's transactions run to the effect of its own lemma. -/
theorem pseudoInstructionsExpand : Obligations.PseudoInstructionsExpand := by
  refine ⟨fun off => ⟨rfl, rfl⟩, byteEvents_eq_mapIdx .bufWrite, fun bs => ?_, rfl, fun u b e => rfl, fun s => ?_⟩
  · rw [ScriptLine.events, byteEvents_eq_mapIdx]
    simp only [Nat.zero_add]
    rfl
  · exact ⟨fun off => ⟨runEvents_offset_command off .encode s, runEvents_offset_command off .decode s⟩,
      runEvents_wbytes s, runEvents_wpayload s, runEvents_clearSticky s, runEvents_setFlags s⟩

end Sys2Proof.Machine
end

section
/-! The length functions and the flags byte (spec 40_lengths R100 to R105). -/

namespace Sys2Proof.Machine

/-! Rounding by a mask: the second form of the wire length (40_lengths R101). -/

/-- The mask of R101 keeps bit 2 and the bits above it. -/
theorem getLsbD_not_three {k : Nat} (hk : k < 32) : (~~~3#32).getLsbD k = decide (2 ≤ k) := by
  decide +revert

theorem and_not_three_eq_shiftLeft (v : Word) : v &&& ~~~3#32 = (v >>> 2) <<< 2 := by
  apply BitVec.eq_of_getLsbD_eq
  intro k hk
  rw [BitVec.getLsbD_and, getLsbD_not_three hk, BitVec.getLsbD_shiftLeft, BitVec.getLsbD_ushiftRight]
  by_cases hlow : k < 2
  · simp [hlow]
  · simp [hlow, hk, Nat.le_of_not_lt hlow]

/-- Masking rounds down to a multiple of 4. -/
theorem toNat_and_not_three (v : Word) : (v &&& ~~~3#32).toNat = 4 * (v.toNat / 4) := by
  have hv := v.isLt
  rw [and_not_three_eq_shiftLeft, BitVec.toNat_shiftLeft, BitVec.toNat_ushiftRight, Nat.shiftLeft_eq, Nat.shiftRight_eq_div_pow]
  omega

theorem wireLength_eq_masked {d : Nat} (hd : d ≤ 65535) : wireLength d = ((BitVec.ofNat 32 d + 3#32) &&& ~~~3#32).toNat := by
  have hsum : (BitVec.ofNat 32 d + 3#32).toNat = d + 3 := by
    rw [BitVec.toNat_add, BitVec.toNat_ofNat, BitVec.toNat_ofNat]
    omega
  rw [toNat_and_not_three, hsum, wireLength]

/-! Padding and the payload (40_lengths R102, R103). -/

theorem add_padLength (d : Nat) : d + padLength d = wireLength d :=
  Nat.add_sub_of_le (wireLength_spec d).1

theorem padLength_le_three (d : Nat) : padLength d ≤ 3 :=
  Nat.sub_le_iff_le_add'.2 (wireLength_spec d).2.1

theorem padLength_eq_zero_iff (d : Nat) : padLength d = 0 ↔ d % 4 = 0 := by
  obtain ⟨hge, hle, hmod⟩ := wireLength_spec d
  have hsum := add_padLength d
  omega

theorem payloadLength_declaredLength (n : Nat) : payloadLength (declaredLength n) = n := by
  rw [declaredLength_eq]
  exact Nat.add_sub_cancel_left 16 n

/-- Settles O39: the wire length is the multiple of 4 at most 3 above the declared length, and masking rounds down to a multiple of 4. -/
theorem lengthFunctionsAgree : Obligations.LengthFunctionsAgree :=
  ⟨fun d => ⟨Nat.mul_comm .., padLength_le_three d, padLength_eq_zero_iff d, add_padLength d⟩,
    fun n => ⟨declaredLength_eq n, payloadLength_declaredLength n⟩,
    fun _ hd => wireLength_eq_masked hd⟩

/-! The flags byte (40_lengths R104, R105). -/

/-- A composed byte weighs U, B and E as 4, 2 and 1, with nothing above. -/
theorem toNat_composeFlags (f : BitVec 3) : (composeFlags f).toNat = 4 * (flagU f).toNat + 2 * (flagB f).toNat + (flagE f).toNat := by
  decide +revert

/-- Settles O40: a composed byte is its three flags in binary, and decomposing and composing undo each other but for bits 7:3. -/
theorem flagsByteComposesAndDecomposes : Obligations.FlagsByteComposesAndDecomposes :=
  ⟨toNat_composeFlags, fun _ => rfl, decomposeFlags_composeFlags, composeFlags_decomposeFlags⟩

end Sys2Proof.Machine
end

section
/-! ENCODE (spec 41_encode R120 to R126): the image it writes, what it leaves alone, and the flags byte. -/

namespace Sys2Proof.Machine

/-! The image of the held chunk, byte by byte (41_encode R125). -/

/-- The bytes of a 16-bit field whose value is given as a number: its 256s, then its ones. -/
theorem beBytes16_ofNat (d : Nat) : beBytes16 (BitVec.ofNat 16 d) = [BitVec.ofNat 8 (d / 256), BitVec.ofNat 8 d] := by
  have hhigh : (BitVec.ofNat 16 d).extractLsb' 8 8 = BitVec.ofNat 8 (d / 256) := by
    apply BitVec.eq_of_toNat_eq
    rw [BitVec.extractLsb'_toNat, BitVec.toNat_ofNat, BitVec.toNat_ofNat, Nat.shiftRight_eq_div_pow]
    omega
  have hlow : (BitVec.ofNat 16 d).extractLsb' 0 8 = BitVec.ofNat 8 d := by
    rw [← BitVec.setWidth_eq_extractLsb' (by decide), BitVec.setWidth_ofNat_of_le (by decide)]
  rw [beBytes16_eq, hhigh, hlow]

theorem encodeImage_heldChunk (s : State) :
    encodeImage (heldChunk s) =
      [0x00#8, s.flags.setWidth 8, BitVec.ofNat 8 ((16 + s.userLen.toNat) / 256), BitVec.ofNat 8 (16 + s.userLen.toNat),
        s.tsn.extractLsb' 24 8, s.tsn.extractLsb' 16 8, s.tsn.extractLsb' 8 8, s.tsn.extractLsb' 0 8,
        s.sid.extractLsb' 8 8, s.sid.extractLsb' 0 8, s.ssn.extractLsb' 8 8, s.ssn.extractLsb' 0 8,
        s.ppid.extractLsb' 24 8, s.ppid.extractLsb' 16 8, s.ppid.extractLsb' 8 8, s.ppid.extractLsb' 0 8]
        ++ bytesAt .pram 0 s.userLen.toNat s := by
  rw [encodeImage, HeldChunk_flags_heldChunk, length_userData, declaredLength_eq, beBytes16_ofNat]
  rfl

/-- The second byte of an image is its flags byte (40_lengths R104). -/
theorem getD_one_encodeImage (c : HeldChunk) : (encodeImage c).getD 1 0 = composeFlags c.flags := rfl

/-! How ENCODE ends (41_encode R120, R126). -/

theorem encodeFits_eq_false_of_lt {s : State} (h : s.bufLen.toNat < s.offset.toNat + 4 * ((16 + s.userLen.toNat + 3) / 4)) :
    encodeFits s = false :=
  Bool.eq_false_iff.2 fun hfits => absurd ((encodeFits_iff s).1 hfits) (Nat.not_le.2 h)

/-- Settles O11: the check of ENCODE fails, and the command raises BOUNDS. -/
theorem encodeReportsBounds : Obligations.EncodeReportsBounds := fun _ hlong =>
  execEncode_of_not_fits (encodeFits_eq_false_of_lt hlong)

/-- The wire length of a 16-bit USER_LEN fits RESULT. -/
theorem toNat_ofNat_wireLenOf (s : State) : (BitVec.ofNat 32 (wireLenOf s)).toNat = 4 * ((16 + s.userLen.toNat + 3) / 4) := by
  have hlen := s.userLen.isLt
  have hwire : wireLenOf s = 4 * ((16 + s.userLen.toNat + 3) / 4) := rfl
  rw [BitVec.toNat_ofNat, hwire]
  omega

theorem bytesAt_finishOk (sp : Space) (a n r : Nat) (s : State) : bytesAt sp a n (finishOk r s) = bytesAt sp a n s :=
  bytesAt_congr fun _ _ => byteAt_finishOk ..

/-! The window of ENCODE, in a state that meets the invariant and has room. -/

section
variable {s : State} (h : s.Inv) (hfits : encodeFits s = true)
include h hfits

/-- The image lies inside BUF. -/
theorem encodeImage_room : s.offset.toNat + (encodeImage (heldChunk s)).length ≤ s.memSize .buf := by
  rw [length_encodeImage_heldChunk]
  exact (encodeWindow_le_bufLen hfits).trans (bufLen_le_of_inv h)

theorem bytesAt_encodeWindow :
    bytesAt .buf s.offset.toNat (16 + s.userLen.toNat) (putBytes .buf s.offset.toNat (encodeImage (heldChunk s)) s) =
      encodeImage (heldChunk s) := by
  obtain ⟨hwf, -⟩ := memory_legal_of_inv h .buf
  rw [← length_encodeImage_heldChunk]
  exact bytesAt_putBytes_same hwf (encodeImage_room h hfits)

/-- ENCODE leaves the flags byte of FLAGS as it stands (41_encode R121). -/
theorem byteAt_flags_encodeWindow :
    byteAt .buf (s.offset.toNat + 1) (putBytes .buf s.offset.toNat (encodeImage (heldChunk s)) s) = composeFlags s.flags := by
  obtain ⟨hwf, -⟩ := memory_legal_of_inv h .buf
  have hlen : 1 < (encodeImage (heldChunk s)).length := by
    rw [length_encodeImage_heldChunk]
    omega
  rw [byteAt_putBytes_inside hwf (encodeImage_room h hfits) hlen, getD_one_encodeImage, HeldChunk_flags_heldChunk]

end

/-- Settles O7: the window holds the run of bytes written, which is the image, and the command ends with the wire length. -/
theorem encodeWritesTheImage : Obligations.EncodeWritesTheImage := by
  intro s h hroom
  have hfits := (encodeFits_iff s).2 hroom
  refine ⟨_, execEncode_of_fits hfits, ?_, ?_, statusLast_setLast okCode s.status, getLsbD_finishOk _ _⟩
  · rw [bytesAt_finishOk, bytesAt_encodeWindow h hfits, encodeImage_heldChunk]
  · rw [finishOk_result, toNat_ofNat_wireLenOf]

/-! What ENCODE leaves alone (41_encode R122, R123). -/

theorem byteAt_encode_outside {s : State} {a : Nat} (hwf : Memory.wf s.buf)
    (ha : a < s.offset.toNat ∨ s.offset.toNat + (16 + s.userLen.toNat) ≤ a) :
    byteAt .buf a (putBytes .buf s.offset.toNat (encodeImage (heldChunk s)) s) = byteAt .buf a s := by
  rw [← length_encodeImage_heldChunk] at ha
  exact byteAt_putBytes_outside (sp := .buf) hwf ha

/-- Settles O9: the padding bytes lie behind the declared bytes, and ENCODE writes the declared bytes alone. -/
theorem encodeLeavesPaddingAlone : Obligations.EncodeLeavesPaddingAlone := by
  intro s hwf hroom
  have hfits := (encodeFits_iff s).2 hroom
  refine ⟨_, execEncode_of_fits hfits, statusLast_setLast okCode s.status, fun a ha _ => ?_⟩
  rw [byteAt_finishOk, byteAt_encode_outside hwf (.inr ha)]

/-- A run of bytes written over itself leaves every byte of its memory as it is. -/
theorem byteAt_putBytes_putBytes_same {sp : Space} {a : Nat} {bs : List Byte} {s : State} (hwf : Memory.wf (s.mem sp)) (c : Nat) :
    byteAt sp c (putBytes sp a bs (putBytes sp a bs s)) = byteAt sp c (putBytes sp a bs s) := by
  have hwf' : Memory.wf ((putBytes sp a bs s).mem sp) := by
    rw [putBytes_def, State.setMem_mem]
    exact Memory.storeBytes_wf _ _ _ hwf
  by_cases hc : a ≤ c ∧ c < a + bs.length
  · obtain ⟨k, rfl⟩ := Nat.exists_eq_add_of_le hc.1
    exact byteAt_putBytes_window_congr hwf hwf' (by rw [putBytes_def, State.setMem_memSize]) (by omega)
  · exact byteAt_putBytes_outside hwf' (by omega)

theorem putBytes_finishOk (sp : Space) (a : Nat) (bs : List Byte) (r : Nat) (s : State) :
    putBytes sp a bs (finishOk r s) = finishOk r (putBytes sp a bs s) := by
  cases sp <;> rfl

/-- BUF is no part of the held chunk (10_state R43). -/
theorem heldChunk_putBytes_buf (a : Nat) (bs : List Byte) (s : State) : heldChunk (putBytes .buf a bs s) = heldChunk s := rfl

theorem heldChunk_finishOk (r : Nat) (s : State) : heldChunk (finishOk r s) = heldChunk s := rfl

theorem putBytes_buf_offset (a : Nat) (bs : List Byte) (s : State) : (putBytes .buf a bs s).offset = s.offset := rfl

/-- A second ENCODE passes or fails the check as the first did, and writes the same image to the same window or nothing. -/
theorem execEncode_twice {s t : State} (hwf : Memory.wf s.buf) (ht : execEncode s = .next t) :
    ∃ u, execEncode t = .next u ∧ ∀ a, byteAt .buf a u = byteAt .buf a t := by
  cases hfits : encodeFits s with
  | true =>
    cases (execEncode_of_fits hfits).symm.trans ht
    refine ⟨_, execEncode_of_fits hfits, fun a => ?_⟩
    rw [heldChunk_finishOk, heldChunk_putBytes_buf, finishOk_offset, putBytes_buf_offset, putBytes_finishOk, byteAt_finishOk,
      byteAt_finishOk, byteAt_finishOk]
    exact byteAt_putBytes_putBytes_same (sp := .buf) hwf a
  | false =>
    cases (execEncode_of_not_fits hfits).symm.trans ht
    exact ⟨_, execEncode_of_not_fits hfits, fun a => byteAt_raise ..⟩

/-- Settles O8: an ENCODE that fits writes its image and nothing else, one that does not fit changes STATUS and RESULT alone, and a second
one changes no byte. -/
theorem encodeChangesOnlyItsWindow : Obligations.EncodeChangesOnlyItsWindow := by
  intro s hwf
  cases hfits : encodeFits s with
  | true =>
    have hrun := execEncode_of_fits hfits
    refine ⟨_, hrun, rfl, fun k hk _ => getLsbD_finishOk _ _ k hk, fun a ha => ?_, fun hlast => ?_, execEncode_twice hwf hrun⟩
    · rw [declLenOf, declaredLength_eq] at ha
      rw [byteAt_finishOk, byteAt_encode_outside hwf (by omega)]
    · exact absurd (statusLast_setLast okCode s.status) hlast
  | false =>
    have hrun := execEncode_of_not_fits hfits
    refine ⟨_, hrun, rfl, fun k hk hk9 => ?_, fun a _ => byteAt_raise .., fun _ => rfl, execEncode_twice hwf hrun⟩
    have hother : k ≠ CmdError.bounds.sticky.bit := hk9
    rw [getLsbD_raise _ _ _ hk, decide_eq_false hother, Bool.or_false]

/-! The flags byte (41_encode R121). -/

/-- A FLAGS value as the host writes it, and the byte it becomes on the wire. -/
theorem composeFlags_extractLsb' {v : Word} (hv : v.toNat ≤ 7) : composeFlags (v.extractLsb' 0 3) = v.setWidth 8 := by
  apply BitVec.eq_of_toNat_eq
  rw [composeFlags, BitVec.toNat_setWidth, BitVec.extractLsb'_toNat, BitVec.toNat_setWidth, Nat.shiftRight_zero]
  omega

/-- Settles O10: the FLAGS write changes FLAGS alone and keeps the invariant and the room, and ENCODE then composes FLAGS as written. -/
theorem encodeReadsFlagsWhenItRuns : Obligations.EncodeReadsFlagsWhenItRuns := by
  intro s v h hv hroom
  have hclear : v.extractLsb' 3 29 = 0#29 := (extractLsb'_eq_zero_iff v 3 29 rfl).2 (Nat.lt_succ_of_le hv)
  have hwrite : perform (.regWrite 0x14 v) s = .next { s with flags := v.extractLsb' 0 3 } := regWrite_flags_of_clear hclear s
  have hinv := inv_of_perform h hwrite
  have hfits : encodeFits { s with flags := v.extractLsb' 0 3 } = true := (encodeFits_iff s).2 hroom
  have hrun := (perform_commandEvent .encode _).trans (execEncode_of_fits hfits)
  refine ⟨_, _, hwrite, hrun, ?_⟩
  rw [byteAt_finishOk, ← composeFlags_extractLsb' hv]
  exact byteAt_flags_encodeWindow hinv hfits

end Sys2Proof.Machine
end

section
/-! DECODE (spec 42_decode R140 to R147): its checks, what it loads, what it leaves alone, and the bytes that it depends on. -/

namespace Sys2Proof.Machine

/-! The checks and how DECODE ends (42_decode R141). -/

/-- The declared length is the number in bytes 2 and 3 of the chunk (42_decode R140). -/
theorem decodeDeclared_eq (s : State) :
    decodeDeclared s = 256 * (byteAt .buf (s.offset.toNat + 2) s).toNat + (byteAt .buf (s.offset.toNat + 3) s).toNat := by
  rw [decodeDeclared, readHeader_eq, BitVec.toNat_append, ← Nat.shiftLeft_add_eq_or_of_lt (BitVec.isLt _), Nat.shiftLeft_eq,
    Nat.mul_comm]

theorem execDecode_of_failed {s : State} {x : CmdError} (h : decodeCheck s = some x) : execDecode s = .next (raise x s) := by
  rw [execDecode, h]

/-- A check that fails is one of the bounds or that of the minimum length. -/
theorem eq_bounds_or_formatTooShort_of_decodeCheck {s : State} {x : CmdError} (h : decodeCheck s = some x) :
    x = .bounds ∨ x = .formatTooShort := by
  unfold decodeCheck at h
  split_ifs at h
  · exact .inl (Option.some.inj h).symm
  · exact .inr (Option.some.inj h).symm
  · exact .inl (Option.some.inj h).symm

section
variable {s : State}

theorem decodeCheck_of_header_outside (h : s.bufLen.toNat < s.offset.toNat + 4) : decodeCheck s = some .bounds :=
  if_pos h

variable (hheader : s.offset.toNat + 4 ≤ s.bufLen.toNat)
include hheader

theorem decodeCheck_of_too_short (h : decodeDeclared s < 16) : decodeCheck s = some .formatTooShort :=
  (if_neg (Nat.not_lt.2 hheader)).trans (if_pos h)

theorem decodeCheck_of_body_outside (hmin : 16 ≤ decodeDeclared s) (h : s.bufLen.toNat < s.offset.toNat + decodeDeclared s) :
    decodeCheck s = some .bounds :=
  (if_neg (Nat.not_lt.2 hheader)).trans ((if_neg (Nat.not_lt.2 hmin)).trans (if_pos h))

end

theorem statusLast_finishOk (r : Nat) (s : State) : statusLast (finishOk r s).status = 0#4 :=
  statusLast_setLast okCode s.status

/-- Settles O16: the four clauses are the four ends of the check, in its order. -/
theorem decodeChecksInOrder : Obligations.DecodeChecksInOrder := by
  intro s d hd
  obtain rfl : d = decodeDeclared s := hd.trans (decodeDeclared_eq s).symm
  refine ⟨fun h => ?_, fun hheader h => ?_, fun hheader hmin h => ?_, fun hheader hmin h => ?_⟩
  · exact execDecode_of_failed (decodeCheck_of_header_outside h)
  · exact execDecode_of_failed (decodeCheck_of_too_short hheader h)
  · exact execDecode_of_failed (decodeCheck_of_body_outside hheader hmin h)
  · exact ⟨_, execDecode_of_check (decodeCheck_eq_none.2 ⟨hheader, hmin, h⟩), statusLast_finishOk ..⟩

/-! What DECODE loads (42_decode R140, R144). -/

/-- A payload length fits USER_LEN. -/
theorem toNat_userLen_decodeWrites (s : State) : (decodeWrites s).userLen.toNat = payloadLength (decodeDeclared s) := by
  have hlt := decodeDeclared_lt s
  rw [decodeWrites_def, loadChunk_userLen, BitVec.toNat_ofNat, Nat.mod_eq_of_lt]
  exact (Nat.sub_le ..).trans_lt hlt

/-- A wire length fits RESULT. -/
theorem toNat_ofNat_wireLength_decodeDeclared (s : State) :
    (BitVec.ofNat 32 (wireLength (decodeDeclared s))).toNat = wireLength (decodeDeclared s) := by
  have hlt := decodeDeclared_lt s
  obtain ⟨-, hle, -⟩ := wireLength_spec (decodeDeclared s)
  rw [BitVec.toNat_ofNat, Nat.mod_eq_of_lt (by omega)]

/-- The payload goes to PRAM from its first byte upward. -/
theorem byteAt_pram_decodeWrites {s : State} {k : Nat} (hwf : Memory.wf s.pram) (hk : k < payloadLength (decodeDeclared s)) :
    byteAt .pram k (decodeWrites s) = byteAt .buf (s.offset.toNat + 16 + k) s := by
  have hroom := payloadLength_le_pramSize (Nat.le_of_lt_succ (decodeDeclared_lt s))
  have hin : k < (decodeWrites s).memSize .pram := hk.trans_le hroom
  rw [byteAt_of_lt hin]
  exact read_decodeWrites_pram hwf hk

/-- Settles O14: the checks pass, each register takes the bytes of its field, and the lengths fit their registers. -/
theorem decodeLoadsTheChunk : Obligations.DecodeLoadsTheChunk := by
  intro s d h hheader hd hmin hroom
  obtain rfl : d = decodeDeclared s := hd.trans (decodeDeclared_eq s).symm
  obtain ⟨hwf, -⟩ := memory_legal_of_inv h .pram
  have hflags : decomposeFlags (readHeader s.offset.toNat s).flags = (byteAt .buf (s.offset.toNat + 1) s).extractLsb' 0 3 := by
    rw [readHeader_eq, decomposeFlags]
  refine ⟨_, execDecode_of_check (decodeCheck_eq_none.2 ⟨hheader, hmin, hroom⟩), hflags, readU32BE_eq .., readU16BE_eq ..,
    readU16BE_eq .., readU32BE_eq .., toNat_userLen_decodeWrites s, fun k hk => ?_,
    toNat_ofNat_wireLength_decodeDeclared s, statusLast_finishOk .., fun k hk => ?_⟩
  · rw [byteAt_finishOk, byteAt_pram_decodeWrites hwf hk]
  · rw [getLsbD_finishOk _ _ k hk, decodeWrites_status]

/-- Settles O19: the declared length is 16, so the checks pass and the run of payload bytes is empty. -/
theorem emptyPayloadDecodes : Obligations.EmptyPayloadDecodes := by
  intro s hroom hhigh hlow
  have hd : decodeDeclared s = 16 := by
    rw [decodeDeclared_eq, hhigh, hlow]
    rfl
  have hcheck : decodeCheck s = none := decodeCheck_eq_none.2 ⟨by omega, by omega, by omega⟩
  refine ⟨_, execDecode_of_check hcheck, statusLast_finishOk .., ?_, ?_⟩
  · rw [finishOk_userLen, decodeWrites_def, loadChunk_userLen, hd]
    rfl
  · rw [finishOk_pram, decodeWrites_def, loadChunk_pram, hd]
    rfl

/-! What DECODE leaves alone (42_decode R146, R147). -/

theorem byteAt_pram_decodeWrites_outside {s : State} {a : Nat} (hwf : Memory.wf s.pram) (ha : payloadLength (decodeDeclared s) ≤ a) :
    byteAt .pram a (decodeWrites s) = byteAt .pram a s := by
  rw [decodeWrites_def, byteAt_loadChunk]
  refine byteAt_putBytes_outside (sp := .pram) hwf (.inr ?_)
  rwa [length_bytesAt, Nat.zero_add]

/-- Settles O15: a DECODE whose checks pass writes its payload and the chunk registers, and one that fails a check only reports it. -/
theorem decodeChangesOnlyTheChunk : Obligations.DecodeChangesOnlyTheChunk := by
  intro s hwf
  obtain ⟨hcheck, hrun⟩ | ⟨x, hcheck, hrun⟩ := execDecode_cases s
  · refine ⟨_, hrun, rfl, fun k hk _ _ => ?_, fun a ha => ?_⟩
    · rw [getLsbD_finishOk _ _ k hk, decodeWrites_status]
    · rw [byteAt_finishOk, byteAt_pram_decodeWrites_outside hwf (Nat.le_of_not_lt fun hlt => ha ⟨hcheck, hlt⟩)]
  · refine ⟨_, hrun, rfl, fun k hk hk8 hk9 => ?_, fun a _ => byteAt_raise ..⟩
    have hother : k ≠ x.sticky.bit := by
      obtain rfl | rfl := eq_bounds_or_formatTooShort_of_decodeCheck hcheck
      · exact hk9
      · exact hk8
    rw [getLsbD_raise x s k hk, decide_eq_false hother, Bool.or_false]

/-! What DECODE depends on (42_decode R142, R143, R145): two states that differ in BUF alone. -/

section
variable {s : State} {m : Memory}
  (hbytes : ∀ k, 2 ≤ k → k < 4 ∨ k < decodeDeclared s →
    byteAt .buf (s.offset.toNat + k) { s with buf := m } = byteAt .buf (s.offset.toNat + k) s)
include hbytes

theorem decodeDeclared_congr : decodeDeclared { s with buf := m } = decodeDeclared s := by
  rw [decodeDeclared_eq, decodeDeclared_eq, hbytes 2 (by omega) (.inl (by omega)), hbytes 3 (by omega) (.inl (by omega))]

theorem decodeCheck_congr : decodeCheck { s with buf := m } = decodeCheck s := by
  simp only [decodeCheck, decodeDeclared_congr hbytes]

/-- A run of bytes inside the chunk, behind its first two. -/
theorem bytesAt_chunk_congr {j n : Nat} (hj : 2 ≤ j) (hn : j + n ≤ decodeDeclared s) :
    bytesAt .buf (s.offset.toNat + j) n { s with buf := m } = bytesAt .buf (s.offset.toNat + j) n s :=
  bytesAt_congr fun k hk => by
    rw [Nat.add_assoc]
    exact hbytes (j + k) (by omega) (.inr (by omega))

theorem decodeWrites_congr (hmin : 16 ≤ decodeDeclared s)
    (hflags : decomposeFlags (byteAt .buf (s.offset.toNat + 1) { s with buf := m }) =
      decomposeFlags (byteAt .buf (s.offset.toNat + 1) s)) :
    decodeWrites { s with buf := m } = { decodeWrites s with buf := m } := by
  have hpayload : 16 + payloadLength (decodeDeclared s) ≤ decodeDeclared s := (Nat.add_sub_of_le hmin).le
  rw [decodeWrites_def, decodeWrites_def, decodeDeclared_congr hbytes]
  simp only [readHeader_eq, readU32BE, readU16BE, memRead, hflags]
  rw [bytesAt_chunk_congr hbytes (j := 4) (by omega) (by omega), bytesAt_chunk_congr hbytes (j := 8) (by omega) (by omega),
    bytesAt_chunk_congr hbytes (j := 10) (by omega) (by omega), bytesAt_chunk_congr hbytes (j := 12) (by omega) (by omega),
    bytesAt_chunk_congr hbytes (by omega) hpayload]
  rfl

end

/-- Settles O17: the check reads bytes 2 and 3, and when it passes every byte that is loaded lies in the chunk. -/
theorem decodeDependsOnItsChunkAlone : Obligations.DecodeDependsOnItsChunkAlone := by
  intro s m hflags hbytes
  have hcheck' := decodeCheck_congr hbytes
  obtain ⟨hcheck, hrun⟩ | ⟨x, hcheck, hrun⟩ := execDecode_cases s
  · obtain ⟨-, hmin, -⟩ := decodeCheck_eq_none.1 hcheck
    refine ⟨_, hrun, (execDecode_of_check (hcheck'.trans hcheck)).trans ?_⟩
    rw [decodeDeclared_congr hbytes, decodeWrites_congr hbytes hmin hflags]
    rfl
  · exact ⟨_, hrun, execDecode_of_failed (hcheck'.trans hcheck)⟩

/-- Settles O18: a write of the flags byte changes no other byte of BUF, so by O17 it counts for its low three bits alone. -/
theorem decodeKeepsOnlyThreeFlagBits : Obligations.DecodeKeepsOnlyThreeFlagBits := by
  intro s F h hcheck hF
  obtain ⟨hwf, -⟩ := memory_legal_of_inv h .buf
  obtain ⟨hheader, -⟩ := decodeCheck_eq_none.1 hcheck
  have hroom : s.offset.toNat + 1 + [F].length ≤ s.memSize .buf := by
    have hbufLen : s.bufLen.toNat ≤ s.memSize .buf := bufLen_le_of_inv h
    rw [List.length_singleton]
    omega
  have hflagsByte : byteAt .buf (s.offset.toNat + 1) (putBytes .buf (s.offset.toNat + 1) [F] s) = F :=
    byteAt_putBytes_inside (k := 0) hwf hroom Nat.zero_lt_one
  obtain ⟨t, ht, ht'⟩ := decodeDependsOnItsChunkAlone s (putBytes .buf (s.offset.toNat + 1) [F] s).buf
    ((congrArg decomposeFlags hflagsByte).trans hF)
    fun k hk _ => byteAt_putBytes_outside hwf (.inr (by rw [List.length_singleton]; omega))
  refine ⟨t, ht, ?_, ht'⟩
  cases (execDecode_of_check hcheck).symm.trans ht
  rw [finishOk_flags, decodeWrites_def, loadChunk_flags, readHeader_eq, hF, decomposeFlags]

end Sys2Proof.Machine
end

section
/-! The two codec laws (spec 42_decode R148, R149): a DECODE of an image gives its chunk, and the image of a decoded chunk is the bytes that
were decoded. -/

namespace Sys2Proof.Machine

/-! A run of bytes and its parts. -/

theorem bytesAt_add (sp : Space) (a m n : Nat) (s : State) : bytesAt sp a (m + n) s = bytesAt sp a m s ++ bytesAt sp (a + m) n s := by
  induction m generalizing a with
  | zero => rw [Nat.zero_add]; rfl
  | succ m ih =>
    have hcons (l : Nat) : bytesAt sp a (l + 1) s = byteAt sp a s :: bytesAt sp (a + 1) l s := rfl
    rw [Nat.add_right_comm, hcons, hcons, ih, List.cons_append, Nat.add_right_comm, Nat.add_assoc]

/-- A run that is two lists one behind the other is the two at their addresses. -/
theorem bytesAt_split {sp : Space} {a m n : Nat} {s : State} {xs ys : List Byte} (h : bytesAt sp a (m + n) s = xs ++ ys)
    (hm : m = xs.length) : bytesAt sp a m s = xs ∧ bytesAt sp (a + m) n s = ys := by
  rw [bytesAt_add] at h
  exact List.append_inj h ((length_bytesAt ..).trans hm)

/-! R148: a DECODE of an image gives its chunk. -/

/-- The fields that the chunk at an address of BUF holds are those of `c`. -/
structure HoldsFields (a : Nat) (c : HeldChunk) (s : State) : Prop where
  header : readHeader a s = ⟨Config.dataType, composeFlags c.flags, BitVec.ofNat 16 (declaredLength c.userData.length)⟩
  tsn : readU32BE .buf (a + 4) s = c.transmissionSequenceNumber
  sid : readU16BE .buf (a + 8) s = c.streamId
  ssn : readU16BE .buf (a + 10) s = c.streamSequenceNumber
  ppid : readU32BE .buf (a + 12) s = c.payloadProtocolId
  payload : bytesAt .buf (a + 16) c.userData.length s = c.userData

theorem readU16BE_of_bytesAt {sp : Space} {a : Nat} {s : State} {v : Half} (h : bytesAt sp a 2 s = beBytes16 v) :
    readU16BE sp a s = v := by
  rw [readU16BE, memRead, h, beValue_beBytes16]

theorem readU32BE_of_bytesAt {sp : Space} {a : Nat} {s : State} {v : Word} (h : bytesAt sp a 4 s = beBytes32 v) :
    readU32BE sp a s = v := by
  rw [readU32BE, memRead, h, beValue_beBytes32]

/-- The header from its two single bytes and its length field (20_memory R57). -/
theorem readHeader_of_bytesAt {a : Nat} {s : State} {type flags : Byte} {v : Half} (h : bytesAt .buf a 2 s = [type, flags])
    (hlen : bytesAt .buf (a + 2) 2 s = beBytes16 v) : readHeader a s = ⟨type, flags, v⟩ := by
  have hpair : [byteAt .buf a s, byteAt .buf (a + 1) s] = [type, flags] := h
  obtain ⟨htype, hflags⟩ : byteAt .buf a s = type ∧ byteAt .buf (a + 1) s = flags := by simpa using hpair
  rw [readHeader, memRead_one, memRead_one, readU16BE_of_bytesAt hlen, htype, hflags]

/-- An image is its fields in wire order, each at its place (41_encode R125). -/
theorem holdsFields_of_image {a : Nat} {c : HeldChunk} {s : State}
    (h : bytesAt .buf a (2 + 2 + 4 + 2 + 2 + 4 + c.userData.length) s = encodeImage c) : HoldsFields a c s := by
  obtain ⟨h, hpayload⟩ := bytesAt_split h rfl
  obtain ⟨h, hppid⟩ := bytesAt_split h rfl
  obtain ⟨h, hssn⟩ := bytesAt_split h rfl
  obtain ⟨h, hsid⟩ := bytesAt_split h rfl
  obtain ⟨h, htsn⟩ := bytesAt_split h rfl
  obtain ⟨h, hlength⟩ := bytesAt_split h rfl
  exact ⟨readHeader_of_bytesAt h hlength, readU32BE_of_bytesAt htsn, readU16BE_of_bytesAt hsid, readU16BE_of_bytesAt hssn,
    readU32BE_of_bytesAt hppid, hpayload⟩

theorem HeldChunk.flag_bits (c : HeldChunk) : flagU c.flags = c.unordered ∧ flagB c.flags = c.beginning ∧ flagE c.flags = c.ending := by
  have hbits : ∀ u b e : Bool, flagU (BitVec.ofBool u ++ BitVec.ofBool b ++ BitVec.ofBool e) = u ∧
      flagB (BitVec.ofBool u ++ BitVec.ofBool b ++ BitVec.ofBool e) = b ∧
      flagE (BitVec.ofBool u ++ BitVec.ofBool b ++ BitVec.ofBool e) = e := by decide
  exact hbits c.unordered c.beginning c.ending

/-- The held chunk from the registers and the payload bytes (10_state R43). -/
theorem heldChunk_eq {s : State} {c : HeldChunk} (hflags : s.flags = c.flags) (htsn : s.tsn = c.transmissionSequenceNumber)
    (hsid : s.sid = c.streamId) (hssn : s.ssn = c.streamSequenceNumber) (hppid : s.ppid = c.payloadProtocolId)
    (hpayload : bytesAt .pram 0 s.userLen.toNat s = c.userData) : heldChunk s = c := by
  obtain ⟨hu, hb, he⟩ := c.flag_bits
  rw [heldChunk, hflags, htsn, hsid, hssn, hppid, hu, hb, he]
  exact congrArg (HeldChunk.mk _ _ _ _ _ _ _) hpayload

/-- The payload as a run: PRAM from its first byte upward takes what follows the fixed fields (42_decode R140). -/
theorem bytesAt_pram_decodeWrites {s : State} (hwf : Memory.wf s.pram) :
    bytesAt .pram 0 (payloadLength (decodeDeclared s)) (decodeWrites s) =
      bytesAt .buf (s.offset.toNat + 16) (payloadLength (decodeDeclared s)) s := by
  have hroom := payloadLength_le_pramSize (Nat.le_of_lt_succ (decodeDeclared_lt s))
  have hcopy := bytesAt_putBytes_same (sp := .pram) (a := 0)
    (bs := bytesAt .buf (s.offset.toNat + 16) (payloadLength (decodeDeclared s)) s) hwf (by rwa [Nat.zero_add, length_bytesAt])
  rw [length_bytesAt] at hcopy
  exact hcopy

section
variable {s : State} {c : HeldChunk} (hfields : HoldsFields s.offset.toNat c s) (hlen : c.userData.length ≤ 65519)
include hfields hlen

/-- The length field of an image does not overflow: the longest payload makes it 65535. -/
theorem decodeDeclared_of_holdsFields : decodeDeclared s = 16 + c.userData.length := by
  rw [decodeDeclared, hfields.header, BitVec.toNat_ofNat, declaredLength_eq, Nat.mod_eq_of_lt (by omega)]

theorem heldChunk_decodeWrites_of_holdsFields (hwf : Memory.wf s.pram) : heldChunk (decodeWrites s) = c := by
  have hn : payloadLength (decodeDeclared s) = c.userData.length := by
    rw [decodeDeclared_of_holdsFields hfields hlen]
    exact Nat.add_sub_cancel_left ..
  refine heldChunk_eq ?_ hfields.tsn hfields.sid hfields.ssn hfields.ppid ?_
  · rw [decodeWrites_def, loadChunk_flags, hfields.header, decomposeFlags_composeFlags]
  · rw [toNat_userLen_decodeWrites, bytesAt_pram_decodeWrites hwf, hn, hfields.payload]

end

/-- Where BUF holds the image of a chunk at OFFSET, inside BUF_LEN, DECODE ends OK with that chunk held, whatever was held before. -/
theorem execDecode_of_image {s : State} {c : HeldChunk} (hwf : Memory.wf s.pram) (hlen : c.userData.length ≤ 65519)
    (himage : bytesAt .buf s.offset.toNat (16 + c.userData.length) s = encodeImage c)
    (hroom : s.offset.toNat + (16 + c.userData.length) ≤ s.bufLen.toNat) :
    ∃ u, execDecode s = .next u ∧ statusLast u.status = 0#4 ∧ heldChunk u = c := by
  have hfields := holdsFields_of_image himage
  have hd := decodeDeclared_of_holdsFields hfields hlen
  have hcheck : decodeCheck s = none := decodeCheck_eq_none.2 ⟨by omega, by omega, by omega⟩
  refine ⟨_, execDecode_of_check hcheck, statusLast_finishOk .., ?_⟩
  rw [heldChunk_finishOk, heldChunk_decodeWrites_of_holdsFields hfields hlen hwf]

/-- What a DECODE finds after an ENCODE that fits: any state with the encoder's BUF, OFFSET and BUF_LEN decodes to the chunk encoded. -/
theorem execDecode_after_encode {s t : State} (h : s.Inv) (hfits : encodeFits s = true) (hparams : t.params = s.params)
    (hbuf : t.buf = (putBytes .buf s.offset.toNat (encodeImage (heldChunk s)) s).buf) (hoffset : t.offset = s.offset)
    (hbufLen : t.bufLen = s.bufLen) (hpram : t.pram = s.pram) :
    ∃ u, execDecode t = .next u ∧ statusLast u.status = 0#4 ∧ heldChunk u = heldChunk s := by
  obtain ⟨hwf, -⟩ := memory_legal_of_inv h .pram
  have hsame : bytesAt .buf t.offset.toNat (16 + s.userLen.toNat) t = encodeImage (heldChunk s) := by
    rw [← bytesAt_encodeWindow h hfits, bytesAt, bytesAt, State.mem_buf, State.memSize_buf, hbuf, hparams, hoffset]
    rfl
  refine execDecode_of_image (hpram ▸ hwf) ?_ ?_ ?_ <;> rw [length_userData]
  · exact userLen_le_of_inv h
  · exact hsame
  · rw [hoffset, hbufLen]
    exact encodeWindow_le_bufLen hfits

/-- Settles O21: ENCODE leaves the image of the held chunk in BUF, and DECODE of an image gives its chunk. -/
theorem encodeThenDecodeRestoresTheChunk : Obligations.EncodeThenDecodeRestoresTheChunk := by
  intro s h hroom
  have hfits := (encodeFits_iff s).2 hroom
  obtain ⟨u, hu, hlast, hchunk⟩ := execDecode_after_encode h hfits
    (t := finishOk (wireLenOf s) (putBytes .buf s.offset.toNat (encodeImage (heldChunk s)) s)) rfl rfl rfl rfl rfl
  exact ⟨_, u, execEncode_of_fits hfits, statusLast_finishOk .., hu, hlast, hchunk⟩

/-- Settles O22: NEW changes the chunk registers alone, so DECODE still finds the image in BUF. -/
theorem roundTripThroughNew : Obligations.RoundTripThroughNew := by
  intro s h hroom
  have hfits := (encodeFits_iff s).2 hroom
  obtain ⟨v, hv, hlast, hchunk⟩ := execDecode_after_encode h hfits
    (t := finishOk 0 (loadChunk s.params.defaultFlags 0#32 0#16 0#16 0#32 0#16
      (finishOk (wireLenOf s) (putBytes .buf s.offset.toNat (encodeImage (heldChunk s)) s)))) rfl rfl rfl rfl rfl
  exact ⟨_, _, v, execEncode_of_fits hfits, execNew_eq _, hv, hlast, hchunk⟩

/-! R149: the image of a decoded chunk is the bytes that were decoded. -/

theorem beBytes16_readU16BE (sp : Space) (a : Nat) (s : State) : beBytes16 (readU16BE sp a s) = bytesAt sp a 2 s := by
  rw [beBytes16_eq, readU16BE_eq, BitVec.extractLsb'_append_eq_left, BitVec.extractLsb'_append_eq_right]
  rfl

theorem beBytes32_append (b0 b1 b2 b3 : Byte) : beBytes32 (b0 ++ b1 ++ b2 ++ b3) = [b0, b1, b2, b3] := by
  have h0 : (b0 ++ b1 ++ b2 ++ b3).extractLsb' 24 8 = b0 :=
    (BitVec.extractLsb'_append_eq_of_le (by decide)).trans
      ((BitVec.extractLsb'_append_eq_of_le (by decide)).trans BitVec.extractLsb'_append_eq_left)
  have h1 : (b0 ++ b1 ++ b2 ++ b3).extractLsb' 16 8 = b1 :=
    (BitVec.extractLsb'_append_eq_of_le (by decide)).trans
      ((BitVec.extractLsb'_append_eq_of_le (by decide)).trans BitVec.extractLsb'_append_eq_right)
  have h2 : (b0 ++ b1 ++ b2 ++ b3).extractLsb' 8 8 = b2 :=
    (BitVec.extractLsb'_append_eq_of_le (by decide)).trans BitVec.extractLsb'_append_eq_right
  rw [beBytes32_eq, h0, h1, h2, BitVec.extractLsb'_append_eq_right]

theorem beBytes32_readU32BE (sp : Space) (a : Nat) (s : State) : beBytes32 (readU32BE sp a s) = bytesAt sp a 4 s := by
  rw [readU32BE_eq, beBytes32_append]
  rfl

section
variable {s : State} (hmin : 16 ≤ decodeDeclared s)
include hmin

/-- The declared length of the chunk that DECODE loads is the one it found. -/
theorem declLenOf_decodeWrites : declLenOf (decodeWrites s) = decodeDeclared s := by
  rw [declLenOf, declaredLength_eq, toNat_userLen_decodeWrites]
  exact Nat.add_sub_of_le hmin

/-- The image of the chunk that DECODE loads: DATA_TYPE, the three flag bits, and the declared bytes of BUF behind them. -/
theorem encodeImage_heldChunk_decodeWrites (hwf : Memory.wf s.pram) :
    encodeImage (heldChunk (decodeWrites s)) =
      [0x00#8, byteAt .buf (s.offset.toNat + 1) s &&& 0x07#8] ++ bytesAt .buf (s.offset.toNat + 2) (decodeDeclared s - 2) s := by
  have hflags : composeFlags (decodeWrites s).flags = byteAt .buf (s.offset.toNat + 1) s &&& 0x07#8 := by
    rw [decodeWrites_def, loadChunk_flags, readHeader_eq]
    exact composeFlags_decomposeFlags _
  have hlength : BitVec.ofNat 16 (declLenOf (decodeWrites s)) = readU16BE .buf (s.offset.toNat + 2) s := by
    rw [declLenOf_decodeWrites hmin, decodeDeclared, BitVec.ofNat_toNat, BitVec.setWidth_eq, readHeader]
  have hdata : (heldChunk (decodeWrites s)).userData = bytesAt .buf (s.offset.toNat + 16) (payloadLength (decodeDeclared s)) s := by
    rw [← bytesAt_pram_decodeWrites hwf, ← toNat_userLen_decodeWrites]
    rfl
  have hbehind : decodeDeclared s - 2 = 2 + 4 + 2 + 2 + 4 + payloadLength (decodeDeclared s) := by
    rw [payloadLength]
    omega
  calc encodeImage (heldChunk (decodeWrites s))
    _ = [Config.dataType, composeFlags (decodeWrites s).flags] ++ beBytes16 (BitVec.ofNat 16 (declLenOf (decodeWrites s)))
        ++ beBytes32 (readU32BE .buf (s.offset.toNat + 4) s) ++ beBytes16 (readU16BE .buf (s.offset.toNat + 8) s)
        ++ beBytes16 (readU16BE .buf (s.offset.toNat + 10) s) ++ beBytes32 (readU32BE .buf (s.offset.toNat + 12) s)
        ++ (heldChunk (decodeWrites s)).userData := by
      rw [encodeImage, HeldChunk_flags_heldChunk, length_userData]
      rfl
    _ = _ := by
      rw [hflags, hlength, hdata, hbehind]
      simp only [beBytes16_readU16BE, beBytes32_readU32BE, bytesAt_add, List.append_assoc]
      rfl

/-- A re-encode needs the room of the padded chunk (42_decode R149). -/
theorem encodeFits_decoded (r : Nat) (hroom : s.offset.toNat + 4 * ((decodeDeclared s + 3) / 4) ≤ s.bufLen.toNat) :
    encodeFits (finishOk r (decodeWrites s)) = true := by
  rw [← declLenOf_decodeWrites hmin] at hroom
  exact (encodeFits_iff _).2 hroom

end

theorem byteAt_buf_decodeWrites (a : Nat) (s : State) : byteAt .buf a (decodeWrites s) = byteAt .buf a s := by
  rw [decodeWrites_def, byteAt_loadChunk, byteAt_putBytes_of_ne _ _ _ _ (by decide)]

/-- A run of BUF written where it lies, with a byte and the masked byte of BUF in place of its first two, changes those two alone. -/
theorem byteAt_putBytes_masked_run {s t : State} {o n : Nat} {x mask : Byte} (hwf : Memory.wf (t.mem .buf))
    (hroom : o + (2 + n) ≤ t.memSize .buf) (ht : ∀ a, byteAt .buf a t = byteAt .buf a s) (a : Nat) :
    byteAt .buf a (putBytes .buf o ([x, byteAt .buf (o + 1) s &&& mask] ++ bytesAt .buf (o + 2) n s) t) =
      if a = o then x else if a = o + 1 then byteAt .buf a s &&& mask else byteAt .buf a s := by
  have hlen : ([x, byteAt .buf (o + 1) s &&& mask] ++ bytesAt .buf (o + 2) n s).length = 2 + n := by
    rw [List.length_append, length_bytesAt]
    rfl
  by_cases hin : o ≤ a ∧ a < o + (2 + n)
  · obtain ⟨k, rfl⟩ := Nat.exists_eq_add_of_le hin.1
    rw [byteAt_putBytes_inside hwf (by rwa [hlen]) (by omega)]
    match k with
    | 0 => simp
    | 1 => simp
    | k + 2 =>
      rw [if_neg (by omega), if_neg (by omega), List.cons_append, List.cons_append, List.getD_cons_succ, List.getD_cons_succ,
        List.nil_append, getD_bytesAt _ _ _ _ _ _ (by omega), Nat.add_assoc, Nat.add_comm 2]
  · rw [byteAt_putBytes_outside hwf (by omega), if_neg (by omega), if_neg (by omega), ht]

/-- Settles O23: the image that ENCODE writes is the bytes decoded, but for its first two, and lies where they lay. -/
theorem reencodeKeepsTheChunkImage : Obligations.ReencodeKeepsTheChunkImage := by
  intro s h hcheck hroom
  obtain ⟨-, hmin, hbody⟩ := decodeCheck_eq_none.1 hcheck
  obtain ⟨hbufWf, -⟩ := memory_legal_of_inv h .buf
  obtain ⟨hpramWf, -⟩ := memory_legal_of_inv h .pram
  refine ⟨_, _, execDecode_of_check hcheck, execEncode_of_fits (encodeFits_decoded hmin _ hroom), statusLast_finishOk .., fun a => ?_⟩
  rw [byteAt_finishOk, heldChunk_finishOk, encodeImage_heldChunk_decodeWrites hmin hpramWf]
  refine byteAt_putBytes_masked_run (t := finishOk (wireLength (decodeDeclared s)) (decodeWrites s)) hbufWf ?_ (fun c => ?_) a
  · rw [Nat.add_sub_of_le (by omega)]
    exact hbody.trans (bufLen_le_of_inv h)
  · rw [byteAt_finishOk, byteAt_buf_decodeWrites]

end Sys2Proof.Machine
end

section
/-! CMD writes and NEW (spec 43_control R170 to R172): the command of the word written, an illegal word, and the construction defaults. -/

namespace Sys2Proof.Machine

/-! A CMD write (43_control R172). -/

theorem cmdWrite_of_ok {w : Word} {i : Instr} (h : decode w = .ok i) (s : State) : cmdWrite w s = exec i s := by
  simp only [cmdWrite, h]

theorem cmdWrite_of_error {w : Word} {e : DecodeError} (h : decode w = .error e) (s : State) :
    cmdWrite w s = .next (raise .illegalCmd s) := by
  simp only [cmdWrite, h, execIllegal]

theorem perform_regWrite_cmd (w : Word) (s : State) : perform (.regWrite 0x00 w) s = cmdWrite w s := rfl

theorem step_of_cmdWrite {s : State} {w : Word} {rest : List HostEvent} (h : s.pending = .regWrite 0x00 w :: rest) :
    step s = cmdWrite w { s with pending := rest } :=
  (step_of_pending_cons h).trans (perform_regWrite_cmd ..)

/-- Settles O4: the step performs the CMD write, which runs the command that the word decodes to, or is ILLEGAL. -/
theorem stepRunsTheCommandWritten : Obligations.StepRunsTheCommandWritten := fun _ _ _ hpending =>
  ⟨fun _ hw => (step_of_cmdWrite hpending).trans (cmdWrite_of_ok hw _),
    fun _ hw => (step_of_cmdWrite hpending).trans (cmdWrite_of_error hw _)⟩

/-! An illegal word (30_encoding R82, 43_control R171). -/

theorem perform_cmdWrite_of_illegal {w : Word} (h : ∀ i, w ≠ encode i) (s : State) :
    perform (.regWrite 0x00 w) s = .next (raise .illegalCmd s) := by
  obtain ⟨i, hw, -⟩ | ⟨-, -, hrun⟩ := cmdWrite_cases w s
  · exact absurd (eq_encode_of_decode hw) (h i)
  · exact hrun

theorem statusLast_raise (x : CmdError) (s : State) : statusLast (raise x s).status = x.code := by
  rw [raise_status, statusLast_setSticky, statusLast_setLast]

theorem getLsbD_raise_of_ne {x : CmdError} {k : Nat} (hk : 4 ≤ k) (hne : k ≠ x.sticky.bit) (s : State) :
    (raise x s).status.getLsbD k = s.status.getLsbD k := by
  rw [getLsbD_raise x s k hk, decide_eq_false hne, Bool.or_false]

theorem getLsbD_raise_sticky (x : CmdError) (s : State) : (raise x s).status.getLsbD x.sticky.bit = true := by
  have hrange := x.sticky.bit_range
  rw [getLsbD_raise x s _ (by omega), decide_eq_true rfl, Bool.or_true]

/-- Settles O5: the words of the three commands are 1, 2 and 3, so any other one raises ILLEGAL_CMD. -/
theorem illegalWordOnlyReports : Obligations.IllegalWordOnlyReports := by
  intro s w hencode hdecode hnew
  have hillegal : ∀ i, w ≠ encode i
    | .encode => hencode
    | .decode => hdecode
    | .new => hnew
  exact ⟨raise .illegalCmd s, perform_cmdWrite_of_illegal hillegal s, statusLast_raise .., getLsbD_raise_sticky ..,
    fun _ hk hne => getLsbD_raise_of_ne (x := .illegalCmd) hk hne s, rfl, rfl⟩

/-! NEW (43_control R170). -/

/-- The state that NEW leaves, as execNew_eq gives it. -/
def afterNew (s : State) : State := finishOk 0 (loadChunk s.params.defaultFlags 0#32 0#16 0#16 0#32 0#16 s)

theorem exec_new (s : State) : exec .new s = .next (afterNew s) := execNew_eq s

theorem toNat_userLen_afterNew (s : State) : (afterNew s).userLen.toNat = 0 := rfl

/-- NEW leaves no payload: the wire length is that of the 16 bytes of header and fixed block (40_lengths R100, R101). -/
theorem wireLenOf_afterNew (s : State) : wireLenOf (afterNew s) = 16 := by
  rw [wireLenOf, declLenOf, toNat_userLen_afterNew]
  rfl

theorem inv_afterNew {s : State} (h : s.Inv) : (afterNew s).Inv :=
  inv_finishOk (inv_loadChunk h _ _ _ _ _ (Nat.zero_le _)) (.inl rfl)

/-- An ENCODE of the construction defaults, which have no payload, needs room for 16 bytes and writes them (41_encode R125). -/
theorem exec_encode_afterNew {s : State} (h : s.Inv) (hroom : s.offset.toNat + 16 ≤ s.bufLen.toNat) :
    ∃ u, exec .encode (afterNew s) = .next u ∧ u.result = 16#32 ∧
      bytesAt .buf s.offset.toNat 16 u =
        [0x00#8, s.params.defaultFlags.setWidth 8, 0x00#8, 0x10#8, 0#8, 0#8, 0#8, 0#8, 0#8, 0#8, 0#8, 0#8, 0#8, 0#8, 0#8, 0#8] := by
  have hroom' : (afterNew s).offset.toNat + wireLenOf (afterNew s) ≤ (afterNew s).bufLen.toNat := by
    rwa [wireLenOf_afterNew]
  obtain ⟨u, hrun, himage, hresult, -, -⟩ := encodeWritesTheImage (afterNew s) (inv_afterNew h) hroom'
  have hpayload : bytesAt .pram 0 0 (afterNew s) = [] := rfl
  rw [toNat_userLen_afterNew, hpayload] at himage
  exact ⟨u, hrun, BitVec.eq_of_toNat_eq (hresult.trans (wireLenOf_afterNew s)), by simpa [afterNew] using himage⟩

/-- Settles O24: the state that NEW leaves, field by field, and O7 for the ENCODE that follows it. -/
theorem newLoadsTheDefaults : Obligations.NewLoadsTheDefaults := fun s =>
  ⟨afterNew s, exec_new s, rfl, statusLast_finishOk .., getLsbD_finishOk 0 _, rfl,
    congrArg (BitVec.ofNat 32) (wireLenOf_afterNew s), exec_encode_afterNew⟩

end Sys2Proof.Machine
end

section
/-! Host accesses (spec 43_control R174 to R179): the register reads and writes, and the bytes of BUF and PRAM. -/

namespace Sys2Proof.Machine

/-! Register reads (43_control R174, R179). -/

theorem perform_regRead_addr (r : RegName) (s : State) :
    perform (.regRead r.addr) s = .next { s with returned := s.returned ++ [.word (regValue r s)] } :=
  perform_readEvent (l := .reg r) rfl

/-- Settles O29: each address of the map is that of its register, whose value the read returns. -/
theorem regReadReturnsTheRegister : Obligations.RegReadReturnsTheRegister := by
  intro s
  have hread := fun r => perform_regRead_addr r s
  exact ⟨hread .cmd, hread .status, hread .result, hread .offset, hread .bufLen, hread .flags, hread .tsn, hread .sid, hread .ssn,
    hread .ppid, hread .userLen, hread .declLen, hread .wireLen, hread .chunkType⟩

theorem regRead_of_unmapped {a : Nat} (h : regAt a = none) (s : State) : regRead a s = answer (.word 0#32) (refuse .access s) := by
  rw [regRead, h]

theorem regWrite_of_unmapped {a : Nat} (h : regAt a = none) (v : Word) (s : State) : regWrite a v s = .next (refuse .access s) := by
  rw [regWrite, h]

/-- Settles O32: such an address names no register, so both accesses are refused. -/
theorem unmappedRegAccessIsRefused : Obligations.UnmappedRegAccessIsRefused := by
  intro s a v ha
  have hnone := regAt_eq_none ha
  exact ⟨congrArg Host.Outcome.next (regRead_of_unmapped hnone s), regWrite_of_unmapped hnone v s⟩

/-! Register writes (43_control R175, R176). -/

theorem perform_regWrite_status (v : Word) (s : State) : perform (.regWrite 0x04 v) s = .next (acknowledge v s) := rfl

/-- Settles O31: the write is write-1-to-clear, bit by bit, and changes STATUS alone. -/
theorem statusWriteClearsOnes : Obligations.StatusWriteClearsOnes := by
  intro s v
  refine ⟨acknowledge v s, perform_regWrite_status v s, fun k => ?_, rfl⟩
  rw [acknowledge_status, getLsbD_clearSticky]
  by_cases hrange : 8 ≤ k ∧ k ≤ 12
  · cases v.getLsbD k <;> simp [hrange]
  · rw [decide_eq_false hrange, if_neg fun ⟨hmin, hmax, _⟩ => hrange ⟨hmin, hmax⟩, Bool.and_false, Bool.not_false, Bool.and_true]

/-- A register write whose legal values are those up to a limit: applied up to it, refused with STK_RANGE beyond (43_control R175). -/
def AppliedUpTo (limit a : Nat) (v : Word) (s written : State) : Prop :=
  (v.toNat ≤ limit → perform (.regWrite a v) s = .next written) ∧
  (limit < v.toNat → perform (.regWrite a v) s = .next (refuse .range s))

theorem appliedUpTo_of_applyInRange {limit a : Nat} {v : Word} {legal : Bool} {s written : State}
    (hwrite : regWrite a v s = .next (applyInRange legal written s)) (hlegal : legal = true ↔ v.toNat ≤ limit) :
    AppliedUpTo limit a v s written := by
  refine ⟨fun hv => ?_, fun hv => ?_⟩
  · rw [perform, hwrite, applyInRange_of_legal (hlegal.2 hv)]
  · rw [perform, hwrite, applyInRange, if_neg fun hl => absurd (hlegal.1 hl) (Nat.not_le.2 hv)]

/-- Upper bits that are 0, as a limit on the value of the word. -/
theorem decide_upper_zero_iff {v : Word} {n m limit : Nat} (h : n + m = 32) (hlimit : 2 ^ n = limit + 1) :
    decide (v.extractLsb' n m = 0#m) = true ↔ v.toNat ≤ limit := by
  rw [decide_eq_true_eq, extractLsb'_eq_zero_iff v n m h, hlimit, Nat.lt_succ_iff]

theorem appliedUpTo_bufLen (v : Word) (s : State) : AppliedUpTo s.params.bufSize 0x10 v s { s with bufLen := v } :=
  appliedUpTo_of_applyInRange rfl decide_eq_true_iff

theorem appliedUpTo_flags (v : Word) (s : State) : AppliedUpTo 7 0x14 v s { s with flags := v.setWidth 3 } := by
  rw [BitVec.setWidth_eq_extractLsb' (by decide)]
  exact appliedUpTo_of_applyInRange rfl (decide_upper_zero_iff rfl rfl)

theorem appliedUpTo_sid (v : Word) (s : State) : AppliedUpTo 0xFFFF 0x1C v s { s with sid := v.setWidth 16 } := by
  rw [BitVec.setWidth_eq_extractLsb' (by decide)]
  exact appliedUpTo_of_applyInRange rfl (decide_upper_zero_iff rfl rfl)

theorem appliedUpTo_ssn (v : Word) (s : State) : AppliedUpTo 0xFFFF 0x20 v s { s with ssn := v.setWidth 16 } := by
  rw [BitVec.setWidth_eq_extractLsb' (by decide)]
  exact appliedUpTo_of_applyInRange rfl (decide_upper_zero_iff rfl rfl)

theorem appliedUpTo_userLen (v : Word) (s : State) : AppliedUpTo 65519 0x28 v s { s with userLen := v.setWidth 16 } := by
  rw [BitVec.setWidth_eq_extractLsb' (by decide)]
  exact appliedUpTo_of_applyInRange rfl decide_eq_true_iff

/-- Settles O30: the rows without a limit are the definition's own, and each row with one is applied up to it and refused beyond. -/
theorem regWriteFollowsTheTable : Obligations.RegWriteFollowsTheTable := by
  intro s v
  obtain ⟨hbufLen, hbufLen'⟩ := appliedUpTo_bufLen v s
  obtain ⟨hflags, hflags'⟩ := appliedUpTo_flags v s
  obtain ⟨hsid, hsid'⟩ := appliedUpTo_sid v s
  obtain ⟨hssn, hssn'⟩ := appliedUpTo_ssn v s
  obtain ⟨huserLen, huserLen'⟩ := appliedUpTo_userLen v s
  exact ⟨perform_regWrite_cmd v s, perform_regWrite_status v s, rfl, rfl, hbufLen, hbufLen', hflags, hflags', rfl, hsid, hsid',
    hssn, hssn', rfl, huserLen, huserLen', rfl, rfl, rfl⟩

/-! Bytes of BUF and PRAM: one lemma for both memories (43_control R177, R178). -/

section
variable {sp : Space} {a : Nat} {s : State}

theorem byteRead_of_le (ha : s.memSize sp ≤ a) : byteRead sp a s = answer (.byte 0x00#8) (refuse .access s) := by
  rw [byteRead, if_neg (Nat.not_lt.2 ha)]

theorem byteWrite_of_le (v : Byte) (ha : s.memSize sp ≤ a) : byteWrite sp a v s = refuse .access s := by
  rw [byteWrite, if_neg (Nat.not_lt.2 ha)]

/-- Inside the memory the host reads what the engine sees. -/
theorem byteRead_eq_answer_byteAt (ha : a < s.memSize sp) : byteRead sp a s = answer (.byte (byteAt sp a s)) s := by
  rw [byteRead_of_lt ha, byteAt_of_lt ha]

/-- A byte write inside the memory changes that memory alone. -/
theorem byteWrite_frame (v : Byte) (ha : a < s.memSize sp) :
    byteWrite sp a v s = s.setMem sp ((byteWrite sp a v s).mem sp) := by
  rw [byteWrite_of_lt v ha, State.setMem_mem]

theorem byteAt_byteWrite (v : Byte) (hwf : Memory.wf (s.mem sp)) (ha : a < s.memSize sp) (b : Nat) :
    byteAt sp b (byteWrite sp a v s) = if b = a then v else byteAt sp b s := by
  rw [byteWrite_eq_putBytes v ha]
  by_cases hb : b = a
  · rw [if_pos hb, hb]
    exact byteAt_putBytes_inside (bs := [v]) hwf ha Nat.zero_lt_one
  · rw [if_neg hb]
    exact byteAt_putBytes_outside hwf (by rw [List.length_singleton]; omega)

end

/-- Settles O33: inside BUF the byte is read or written alone, and outside both accesses are refused; BUF_LEN is not looked at. -/
theorem bufAccessUsesBufSize : Obligations.BufAccessUsesBufSize := by
  intro s a v hwf
  refine ⟨fun ha => ?_, fun ha => ?_⟩
  · exact ⟨congrArg Host.Outcome.next (byteRead_eq_answer_byteAt (sp := .buf) ha), byteWrite .buf a v s, rfl,
      byteWrite_frame (sp := .buf) v ha, byteAt_byteWrite (sp := .buf) v hwf ha⟩
  · exact ⟨congrArg Host.Outcome.next (byteRead_of_le (sp := .buf) ha), congrArg Host.Outcome.next (byteWrite_of_le (sp := .buf) v ha)⟩

/-- Settles O34: the same for PRAM, whose size is 65519. -/
theorem pramAccessUsesPramSize : Obligations.PramAccessUsesPramSize := by
  intro s a v hwf
  refine ⟨fun ha => ?_, fun ha => ?_⟩
  · have hin : a < s.memSize .pram := Nat.lt_succ_of_le ha
    exact ⟨congrArg Host.Outcome.next (byteRead_eq_answer_byteAt hin), byteWrite .pram a v s, rfl, byteWrite_frame v hin,
      byteAt_byteWrite v hwf hin⟩
  · exact ⟨congrArg Host.Outcome.next (byteRead_of_le (sp := .pram) ha), congrArg Host.Outcome.next (byteWrite_of_le (sp := .pram) v ha)⟩

end Sys2Proof.Machine
end

section
/-! Errors (spec 60_exceptions R201 to R204): what raise does, the ways a command ends, and which events leave LAST and RESULT alone. -/

namespace Sys2Proof.Machine

/-! What raise does (60_exceptions R203). -/

/-- The table of the three errors is that of their codes and sticky bits (60_exceptions R201). -/
theorem eq_code_and_bit_of_mem_table {x : CmdError} {code : BitVec 4} {bit : Nat}
    (h : (x, code, bit) ∈ [(CmdError.formatTooShort, 1#4, 8), (CmdError.bounds, 2#4, 9), (CmdError.illegalCmd, 3#4, 10)]) :
    code = x.code ∧ bit = x.sticky.bit := by
  simp only [List.mem_cons, List.not_mem_nil, or_false, Prod.mk.injEq] at h
  obtain ⟨rfl, rfl, rfl⟩ | ⟨rfl, rfl, rfl⟩ | ⟨rfl, rfl, rfl⟩ := h <;> exact ⟨rfl, rfl⟩

theorem raise_frame (x : CmdError) (s : State) :
    raise x s = { s with status := (raise x s).status, result := (raise x s).result } := rfl

/-- Settles O25: the row's code and bit are those of the error, for which the facts about raise hold. -/
theorem raiseDoesExactlyThis : Obligations.RaiseDoesExactlyThis := by
  intro x code bit s hrow
  obtain ⟨rfl, rfl⟩ := eq_code_and_bit_of_mem_table hrow
  exact ⟨statusLast_raise x s, getLsbD_raise_sticky x s, fun _ hk hne => getLsbD_raise_of_ne hk hne s, raise_result s x,
    raise_frame x s⟩

/-! How a command ends (60_exceptions R201, 41_encode R126). -/

/-- The ways a command can end: OK, where the result of ENCODE and DECODE is a wire length and so fits RESULT and is not 0 (10_state R25),
or with one of its own errors. -/
inductive CommandEnd (s : State) (i : Instr) : State → Prop
  | ok (res : Nat) (u : State) (hres : i ≠ .new → 0 < res ∧ res < 2 ^ 32) : CommandEnd s i (finishOk res u)
  | tooShort (hi : i = .decode) : CommandEnd s i (raise .formatTooShort s)
  | outOfBounds (hi : i ≠ .new) : CommandEnd s i (raise .bounds s)

theorem wireLength_fits_result {d : Nat} (hmin : 16 ≤ d) (hmax : d < 2 ^ 17) : 0 < wireLength d ∧ wireLength d < 2 ^ 32 := by
  obtain ⟨hge, hle, -⟩ := wireLength_spec d
  omega

theorem wireLenOf_fits_result (s : State) : 0 < wireLenOf s ∧ wireLenOf s < 2 ^ 32 := by
  have hlen := s.userLen.isLt
  exact wireLength_fits_result (d := 16 + s.userLen.toNat) (by omega) (by omega)

theorem exec_end (i : Instr) (s : State) : ∃ t, exec i s = .next t ∧ CommandEnd s i t := by
  cases i with
  | encode =>
    obtain ⟨-, h⟩ | ⟨-, h⟩ := execEncode_cases s
    · exact ⟨_, h, .ok _ _ fun _ => wireLenOf_fits_result s⟩
    · exact ⟨_, h, .outOfBounds nofun⟩
  | decode =>
    obtain ⟨hcheck, h⟩ | ⟨x, hcheck, h⟩ := execDecode_cases s
    · obtain ⟨-, hmin, -⟩ := decodeCheck_eq_none.1 hcheck
      have hlt := decodeDeclared_lt s
      exact ⟨_, h, .ok _ _ fun _ => wireLength_fits_result hmin (by omega)⟩
    · obtain rfl | rfl := eq_bounds_or_formatTooShort_of_decodeCheck hcheck
      · exact ⟨_, h, .outOfBounds nofun⟩
      · exact ⟨_, h, .tooShort rfl⟩
  | new => exact ⟨_, execNew_eq s, .ok _ _ fun hnew => absurd rfl hnew⟩

/-- Settles O26: each end has its code in LAST, and an error has its sticky bit set beside it. -/
theorem eachCommandEndsWithItsOwnCodes : Obligations.EachCommandEndsWithItsOwnCodes := by
  intro i s
  obtain ⟨t, ht, hend⟩ := exec_end i s
  refine ⟨t, ht, ?_⟩
  cases hend with
  | ok res u => exact .inl (statusLast_finishOk res u)
  | tooShort hi => exact .inr (.inl ⟨statusLast_raise .formatTooShort s, hi, getLsbD_raise_sticky .formatTooShort s⟩)
  | outOfBounds hi => exact .inr (.inr ⟨statusLast_raise .bounds s, hi, getLsbD_raise_sticky .bounds s⟩)

/-- Every CMD write ends OK or raises one error in the state it found (60_exceptions R203, R204). -/
theorem perform_cmdWrite_ends (w : Word) (s : State) :
    ∃ t, perform (.regWrite 0x00 w) s = .next t ∧ (statusLast t.status = 0#4 ∨ ∃ x, t = raise x s) := by
  rw [perform_regWrite_cmd]
  obtain ⟨i, -, hcmd⟩ | ⟨-, -, hcmd⟩ := cmdWrite_cases w s
  · obtain ⟨t, ht, hend⟩ := exec_end i s
    refine ⟨t, hcmd.trans ht, ?_⟩
    cases hend with
    | ok res u => exact .inl (statusLast_finishOk res u)
    | tooShort | outOfBounds => exact .inr ⟨_, rfl⟩
  · exact ⟨_, hcmd, .inr ⟨_, rfl⟩⟩

/-- Settles O27: a CMD write that does not end OK is a raise, which writes STATUS and RESULT alone. -/
theorem failedCommandWritesOnlyStatusAndResult : Obligations.FailedCommandWritesOnlyStatusAndResult := by
  intro w s
  obtain ⟨t, ht, hok | ⟨x, rfl⟩⟩ := perform_cmdWrite_ends w s
  · exact ⟨t, ht, fun hfail => absurd hok hfail⟩
  · exact ⟨_, ht, fun _ => ⟨raise_result s x, raise_frame x s⟩⟩

theorem finishOk_result_ne_zero {res : Nat} (hpos : 0 < res) (hlt : res < 2 ^ 32) (u : State) : (finishOk res u).result ≠ 0#32 := by
  rw [finishOk_result, BitVec.toNat_ne, BitVec.toNat_ofNat, Nat.mod_eq_of_lt hlt]
  exact hpos.ne'

theorem raise_result_eq_zero_iff (x : CmdError) (s : State) :
    (raise x s).result = 0#32 ↔ statusLast (raise x s).status ≠ 0#4 :=
  iff_of_true (raise_result s x) (raise_last_ne_ok x s)

/-- Settles O28: an OK end of ENCODE or DECODE leaves a wire length that is not 0, and a raise leaves 0. -/
theorem resultZeroExactlyOnFailure : Obligations.ResultZeroExactlyOnFailure := by
  intro i s hi
  have hnew : i ≠ .new := by
    rintro rfl
    exact hi.elim nofun nofun
  obtain ⟨t, ht, hend⟩ := exec_end i s
  refine ⟨t, ht, ?_⟩
  cases hend with
  | ok res u hres =>
    obtain ⟨hpos, hlt⟩ := hres hnew
    exact iff_of_false (finishOk_result_ne_zero hpos hlt u) (not_not_intro (statusLast_finishOk res u))
  | tooShort => exact raise_result_eq_zero_iff .formatTooShort s
  | outOfBounds => exact raise_result_eq_zero_iff .bounds s

/-! Which events leave LAST and RESULT alone (60_exceptions R202). -/

/-- LAST and RESULT, which report how a command ended, are as they were. -/
def KeepsReport (s t : State) : Prop := statusLast t.status = statusLast s.status ∧ t.result = s.result

theorem refuse_keepsReport (b : Sticky) (s : State) : KeepsReport s (refuse b s) := ⟨statusLast_setSticky .., rfl⟩

theorem acknowledge_keepsReport (v : Word) (s : State) : KeepsReport s (acknowledge v s) := ⟨statusLast_clearSticky .., rfl⟩

theorem setMem_keepsReport (sp : Space) (m : Memory) (s : State) : KeepsReport s (s.setMem sp m) :=
  ⟨congrArg statusLast (State.setMem_status ..), State.setMem_result ..⟩

theorem RegWriteEffect.keepsReport {a : Nat} {v : Word} {s t : State} (ht : RegWriteEffect a v s t) : KeepsReport s t := by
  cases ht with
  | acknowledged => exact acknowledge_keepsReport v s
  | refused b => exact refuse_keepsReport b s
  | offset | bufLen | flags | tsn | sid | ssn | ppid | userLen => exact ⟨rfl, rfl⟩

theorem EventEffect.keepsReport {e : HostEvent} {s t : State} (ht : EventEffect s e t) (hcmd : ∀ w, e ≠ .regWrite 0x00 w)
    (hreset : e ≠ .reset) : KeepsReport s t := by
  cases ht with
  | encoded | decoded | renewed | raised => exact absurd rfl (hcmd _)
  | registerWritten hwrite => exact hwrite.keepsReport
  | answered => exact ⟨rfl, rfl⟩
  | answeredRefused => exact refuse_keepsReport .access s
  | byteWritten => exact setMem_keepsReport ..
  | byteRefused => exact refuse_keepsReport .access s
  | reset => exact absurd rfl hreset

/-- Settles O36: of the ways an event can end, only those of a CMD write and of a reset write LAST or RESULT. -/
theorem onlyCommandsWriteLastAndResult : Obligations.OnlyCommandsWriteLastAndResult := by
  intro e s hcmd hreset
  obtain ⟨t, ht, heffect⟩ := perform_effect e s
  exact ⟨t, ht, heffect.keepsReport hcmd hreset⟩

end Sys2Proof.Machine
end

section
/-! Reset (spec 70_reset R230): the register values that a reset leaves, whatever the memories and the other fields held. -/

namespace Sys2Proof.Machine

/-- Every register has its value in the reset column of 10_state R22, and the registers that are computed read as R230 says. -/
def HasResetValues (s : State) : Prop :=
  s.status = 0#32 ∧ s.result = 0#32 ∧ s.offset = 0#32 ∧ s.bufLen.toNat = s.params.bufSize ∧ s.flags = s.params.defaultFlags ∧
    s.tsn = 0#32 ∧ s.sid = 0#16 ∧ s.ssn = 0#16 ∧ s.ppid = 0#32 ∧ s.userLen = 0#16 ∧
    regValue .declLen s = 16#32 ∧ regValue .wireLen s = 16#32 ∧ regValue .chunkType s = 0#32

/-- A legal BUF_SIZE fits in BUF_LEN, so reset loads it whole (00_scope R7). -/
theorem toNat_ofNat_bufSize {p : Params} (hp : p.wf) : (BitVec.ofNat 32 p.bufSize).toNat = p.bufSize := by
  obtain ⟨-, hmax⟩ := hp
  exact Nat.mod_eq_of_lt (by omega)

/-- Without a payload the declared length is that of the header and the fixed block (10_state R34). -/
theorem regValue_declLen_of_userLen_eq_zero {s : State} (h : s.userLen = 0#16) : regValue .declLen s = 16#32 := by
  rw [regValue, declLenOf, h]
  rfl

/-- Those 16 bytes are a multiple of 4 and take no padding (10_state R35). -/
theorem regValue_wireLen_of_userLen_eq_zero {s : State} (h : s.userLen = 0#16) : regValue .wireLen s = 16#32 := by
  rw [regValue, wireLenOf, declLenOf, h]
  rfl

theorem hasResetValues_launched {p : Params} (hp : p.wf) (buf pram : Memory) (n : Nat) (es : List HostEvent) (vs : List BusValue) :
    HasResetValues (State.launched p buf pram n es vs) :=
  have huserLen := State.launched_userLen p buf pram n es vs
  ⟨rfl, rfl, rfl, toNat_ofNat_bufSize hp, rfl, rfl, rfl, rfl, rfl, huserLen,
    regValue_declLen_of_userLen_eq_zero huserLen, regValue_wireLen_of_userLen_eq_zero huserLen, rfl⟩

/-- Settles O43: the reset state and a reset event both launch the DCC with legal parameters, the event with those of the state it found. -/
theorem resetSetsEveryRegister : Obligations.ResetSetsEveryRegister :=
  ⟨hasResetValues_launched config_params_wf .., fun s hp =>
    ⟨resetEvent s, rfl, hasResetValues_launched hp .., resetEvent_params s⟩⟩

end Sys2Proof.Machine
end
